-- ==== Sys2Proof/Word.lean ====
section
/-! DEFINITION. The word and byte of the SM3 hash core (spec 00_scope.md R6, R9).

Both are bit vectors: software reads and writes words through the port, and the algorithm adds, rotates
and masks them. `+` on a word is addition modulo 2^32 (R9), which is `BitVec`'s own addition. -/

namespace Sys2Proof

/-- A word: 32 bits, unsigned, bit 31 the most significant (R9). -/
abbrev Word := BitVec 32

/-- A byte: 8 bits, unsigned (R9). -/
abbrev Byte := BitVec 8

end Sys2Proof
end

