-- ==== Sys2Proof/Machine/Bus.lean ====
section
/-! DEFINITION. The words in which the host and the core talk: offsets, access sizes, port events, responses, the names of
the registers in the window, and the bus protocols that carry transactions (spec 20_memory.md R35, R36; 10_state.md R24;
70_reset_and_hazards.md R128, R129; 00_scope.md R8).

The core runs no program. What another machine would fetch from memory, this one is handed by a host, one
transaction at a time. -/

namespace Sys2Proof.Machine

/-- A byte offset from BASE. Six bits: the core decodes 0x00 to 0x3F and never sees anything else (R38), so a
transaction outside the window cannot be written down. -/
abbrev Offset := BitVec 6

/-- The size of an access: 1, 2 or 4 bytes (R36). -/
inductive AccessSize where
  | byte
  | half
  | word
deriving DecidableEq, Repr

/-- What can happen at the core's pins. The first two are the port's two kinds of transaction (R36). -/
inductive PortEvent where
  /-- `read(off, size)` (R36). -/
  | read (off : Offset) (size : AccessSize)
  /-- `write(off, size, data)` (R36). -/
  | write (off : Offset) (size : AccessSize) (data : Word)
  /-- The reset input is asserted while no command executes (R128). -/
  | reset
  /-- The reset input is asserted while a CMD write of `w` executes: that command is abandoned (R129). -/
  | resetDuringCommand (w : Word)
deriving DecidableEq, Repr

/-- The one response a transaction completes with (R36). `data` is a read's `OK(data)`, `ok` a write's `OK`,
`error` is `ERROR`, which carries no data (60_exceptions.md R116). -/
inductive Response where
  | data (w : Word)
  | ok
  | error
deriving DecidableEq, Repr

/-- The registers of the window (R24). The three reserved offsets behave alike (R30) and share one name. -/
inductive PortReg where
  | cmd
  | status
  | dataIn
  | bitCntLo
  | bitCntHi
  | digest (k : Fin 8)
  | reserved
deriving DecidableEq, Repr

/-! ### The bus -/

/-- The event is one of the port's two kinds of transaction (R36); a reset is not. -/
def PortEvent.isTransaction : PortEvent → Bool
  | .read _ _ => true
  | .write _ _ _ => true
  | .reset => false
  | .resetDuringCommand _ => false

/-- The response is one that the event can complete with: `OK(data)` or `ERROR` for a read, `OK` or `ERROR` for a
write (R36). -/
def Response.answers (r : Response) (e : PortEvent) : Bool :=
  match e, r with
  | .read _ _, .data _ => true
  | .read _ _, .ok => false
  | .read _ _, .error => true
  | .write _ _ _, .data _ => false
  | .write _ _ _, .ok => true
  | .write _ _ _, .error => true
  | .reset, _ => false
  | .resetDuringCommand _, _ => false

/-- A BUS_PROTOCOL: how a bus carries the port's transactions and their responses. The two laws are R8's constraint, "must
map read, write, OK and ERROR responses one to one": what the receiver understands is exactly what the sender meant. What
a request or a reply is on the wires is the bus's own, so both are types of its choice (log entry 11). -/
structure BusProtocol where
  /-- What the bus carries from the host to the core. -/
  Request : Type
  /-- What the bus carries back. -/
  Reply : Type
  /-- How the host sends a transaction. -/
  sendRequest : PortEvent → Request
  /-- What the port understands, if anything. -/
  readRequest : Request → Option PortEvent
  /-- How the port sends the response to a transaction. -/
  sendReply : PortEvent → Response → Reply
  /-- What the host of a transaction understands, if anything. -/
  readReply : PortEvent → Reply → Option Response
  /-- Requests are the transactions, one to one. -/
  request_iff : ∀ e q, readRequest q = some e ↔ e.isTransaction = true ∧ sendRequest e = q
  /-- The replies to a transaction are its responses, one to one. -/
  reply_iff : ∀ e r q, readReply e q = some r ↔ r.answers e = true ∧ sendReply e r = q

/-- The bus that carries transactions and responses as they are. It shows that the constraint can be met; no
statement rests on it. -/
def BusProtocol.direct : BusProtocol where
  Request := PortEvent
  Reply := Response
  sendRequest := id
  readRequest e := if e.isTransaction then some e else none
  sendReply _ := id
  readReply e r := if r.answers e then some r else none
  request_iff e q := by
    constructor
    · intro h
      split at h
      · injection h with h; subst h; exact ⟨‹_›, rfl⟩
      · cases h
    · rintro ⟨h, rfl⟩; exact if_pos h
  reply_iff e r q := by
    constructor
    · intro h
      split at h
      · injection h with h; subst h; exact ⟨‹_›, rfl⟩
      · cases h
    · rintro ⟨h, rfl⟩; exact if_pos h

end Sys2Proof.Machine
end

