-- ==== Sys2Proof/Config.lean ====
section
/-! DEFINITION. What the spec leaves to a platform or leaves open (spec 00_scope.md R8; 93_implementation_defined.md
O1, O2, O3, O6). Every constant here is opaque: nothing in Lean can evaluate it, so a claim holds whatever it is. -/

namespace Sys2Proof.Config

/-- Which 64-byte slot of the host's address space the window stands in. The platform's choice (R8, O1). -/
opaque baseSlot : Nat

/-- `BASE`: the byte address of register offset 0x00, a multiple of 64 (R8). -/
def base : Nat := 64 * baseSlot

/-- The platform's choice of a protocol, given that there is one (log entry 11). -/
opaque busProtocolChoice [Inhabited Machine.BusProtocol] : Machine.BusProtocol

/-- `BUS_PROTOCOL`: the bus that carries the port's transactions, any that maps them and their responses one to one
(R8, O2; 20_memory.md R36). -/
def busProtocol : Machine.BusProtocol := @busProtocolChoice ⟨Machine.BusProtocol.direct⟩

/-- One less than `LAT_READ`. -/
opaque readExtra : Nat
/-- One less than `LAT_INIT`. -/
opaque initExtra : Nat
/-- One less than `LAT_UPDATE(n, blocks)`. -/
opaque updateExtra : Nat → Nat → Nat
/-- One less than `LAT_FINALIZE(blocks)`. -/
opaque finalizeExtra : Nat → Nat
/-- One less than the time of a transaction for which R138 names no latency (log entry 8). -/
opaque unnamedExtra : Machine.PortEvent → Nat
/-- R138 gives a DATA_IN write "LAT_READ or LAT_INIT": true if this platform uses LAT_INIT (log entry 8). -/
opaque dataInWriteUsesInit : Bool
/-- R138 gives NOP "LAT_READ or LAT_INIT": true if this platform uses LAT_INIT (log entry 8). -/
opaque nopUsesInit : Bool

/-- `LAT_READ`: finite and positive (R8). -/
def latRead : Nat := readExtra + 1
/-- `LAT_INIT`: finite and positive (R8). -/
def latInit : Nat := initExtra + 1
/-- `LAT_UPDATE(n, blocks)`: finite and positive (R8). -/
def latUpdate (n blocks : Nat) : Nat := updateExtra n blocks + 1
/-- `LAT_FINALIZE(blocks)`: finite and positive (R8). -/
def latFinalize (blocks : Nat) : Nat := finalizeExtra blocks + 1
/-- The time of a transaction for which R138 names no latency: finite and positive (log entry 8). -/
def latUnnamed (e : Machine.PortEvent) : Nat := unnamedExtra e + 1

/-- The response, if any, that the bus gives to the `n`-th CMD write abandoned by a reset. It is a parameter of
BUS_PROTOCOL (R129, O6), so a free value: `n` is the plain counter `State.draws` (log entry 4). -/
opaque abandonedResponse : Nat → Option Machine.Response

end Sys2Proof.Config
end

