-- ==== Sys2Proof/Syntax.lean ====
section
/-! DEFINITION. The commands of the SM3 hash core: one constructor per row of spec/opcode_table.json
(30_encoding.md R56). A command is the core's only encoded item (R54); it is what this model calls an instruction. -/

namespace Sys2Proof

/-- The four commands of R56. -/
inductive Instr where
  /-- NOP: no operation (44_digest_commands.md R102). -/
  | nop
  /-- INIT: start a new digest (R103). -/
  | init
  /-- UPDATE: absorb `nb` message bytes from DATA_IN (R104). `nb` is the encoded field NB, three bits (30_encoding.md
  R55); legal values are 0 to 4. -/
  | update (nb : BitVec 3)
  /-- FINALIZE: pad, compress the tail, publish the digest (R105). -/
  | finalize
deriving DecidableEq, Repr

end Sys2Proof
end

