-- ==== Sys2Proof/WellFormed.lean ====
section
/-! DEFINITION. Which commands are legal as syntax: the one constraint of the opcode table, `nb <= 4`
(spec 30_encoding.md R57, R59). -/

namespace Sys2Proof

/-- UPDATE's byte count is 0 to 4; the other commands have no operand (R57). -/
def Instr.wellFormed : Instr → Bool
  | .nop => true
  | .init => true
  | .update nb => decide (nb.toNat ≤ 4)
  | .finalize => true

end Sys2Proof
end

