-- ==== Sys2Proof/Decode.lean ====
section
/-! DEFINITION. The command decoder, total over all 2^32 words and rejecting by name, and the encoder beside it
(spec 30_encoding.md R55 to R59). -/

namespace Sys2Proof

/-- Why a word is no command: the four kinds of illegal word of R59, in the order R58 tests them. -/
inductive IllegalWord where
  /-- RSV is not 0. -/
  | reservedBits
  /-- OP is 0x4 to 0xF. -/
  | reservedOp
  /-- OP is 0, 1 or 3 and NB is not 0. -/
  | byteCountNotZero
  /-- OP is 2 and NB is 5, 6 or 7. -/
  | byteCountTooLarge
deriving DecidableEq, Repr

/-- OP, bits 3:0 (R55). -/
def fieldOp (w : Word) : BitVec 4 := w.extractLsb' 0 4

/-- NB, bits 6:4 (R55). -/
def fieldNb (w : Word) : BitVec 3 := w.extractLsb' 4 3

/-- RSV, bits 31:7 (R55). -/
def fieldRsv (w : Word) : BitVec 25 := w.extractLsb' 7 25

/-- A command without operands: NB must be 0 (R55). -/
def decodePlain (nb : BitVec 3) (i : Instr) : Except IllegalWord Instr :=
  if nb = 0 then .ok i else .error .byteCountNotZero

/-- UPDATE: NB is 0 to 4 (R58). -/
def decodeUpdate (nb : BitVec 3) : Except IllegalWord Instr :=
  if nb.toNat ≤ 4 then .ok (.update nb) else .error .byteCountTooLarge

/-- The decode function of R58. Its `Illegal` is here an error that says which line of R59 the word falls under;
the machine treats all of them alike. -/
def decode (w : Word) : Except IllegalWord Instr :=
  if fieldRsv w ≠ 0 then .error .reservedBits
  else match (fieldOp w).toNat with
    | 0 => decodePlain (fieldNb w) .nop
    | 1 => decodePlain (fieldNb w) .init
    | 2 => decodeUpdate (fieldNb w)
    | 3 => decodePlain (fieldNb w) .finalize
    | _ => .error .reservedOp

/-- A command word from its fields: RSV = 0, then NB, then OP (R55). -/
def commandWord (nb : BitVec 3) (op : BitVec 4) : Word := (0 : BitVec 25) ++ nb ++ op

/-- The OP value of each command (R56). -/
def opcode : Instr → BitVec 4
  | .nop => 0x0
  | .init => 0x1
  | .update _ => 0x2
  | .finalize => 0x3

/-- The NB value of each command: UPDATE's operand, 0 for every other (R55). -/
def byteCountField : Instr → BitVec 3
  | .nop => 0
  | .init => 0
  | .update nb => nb
  | .finalize => 0

/-- The word of a well-formed command (R55, R56). -/
def encode (i : Instr) : Word := commandWord (byteCountField i) (opcode i)

/-- The command word whose low `nbits` bits are `w` and whose other bits are 0. A command is one 32-bit word
(R54), so the opcode table's numbering of bits is the word's own. -/
def tableWord (nbits w : Nat) : Word := BitVec.ofNat 32 (w % 2 ^ nbits)

/-- What the decoder reads from a word of the opcode table. -/
def decodeTableWord (nbits w : Nat) : Option Instr :=
  match decode (tableWord nbits w) with
  | .ok i => some i
  | .error _ => none

end Sys2Proof
end

