-- ==== Sys2Proof/Machine/WordOps.lean ====
section
/-! DEFINITION. Word operations, byte order and constants (spec 40_wordops.md R64 to R74; 00_scope.md R9).
Pure and total functions (R11). -/

namespace Sys2Proof.Machine

/-- The chaining state V[0..7], A first (10_state.md R16). -/
abbrev ChainState := Vector Word 8

/-! ### Byte order (R9) -/

/-- `be32(b0, b1, b2, b3)`: b0 is the most significant byte. -/
def be32 (b0 b1 b2 b3 : Byte) : Word := b0 ++ b1 ++ b2 ++ b3

/-- Byte `i` of a word counted from the most significant end: `w[31-8i : 24-8i]`. -/
def byteOfWord (w : Word) (i : Nat) : Byte := w.extractLsb' (24 - 8 * i) 8

/-- `word_bytes(w)`: the four bytes of a word, most significant first. -/
def wordBytes (w : Word) : List Byte := (List.range 4).map (byteOfWord w)

/-- `be64bytes(v)`: byte i is `v[63-8i : 56-8i]`. -/
def be64bytes (v : BitVec 64) : List Byte := (List.range 8).map fun i => v.extractLsb' (56 - 8 * i) 8

/-! ### Primitives -/

/-- ROTL(x, n), with n taken modulo 32 (R64). -/
def rotl (x : Word) (n : Nat) : Word :=
  let m := n % 32
  if m = 0 then x else (x <<< m) ||| (x >>> (32 - m))

/-- FF(x, y, z, j), the source's boolMix1 (R65). -/
def ff (x y z : Word) (j : Nat) : Word :=
  if j < 16 then x ^^^ y ^^^ z else (x &&& y) ||| (x &&& z) ||| (y &&& z)

/-- GG(x, y, z, j), the source's boolMix2 (R66). -/
def gg (x y z : Word) (j : Nat) : Word :=
  if j < 16 then x ^^^ y ^^^ z else (x &&& y) ||| (~~~x &&& z)

/-- P0(x), the source's permute0 (R67). -/
def p0 (x : Word) : Word := x ^^^ rotl x 9 ^^^ rotl x 17

/-- P1(x), the source's permute1 (R68). -/
def p1 (x : Word) : Word := x ^^^ rotl x 15 ^^^ rotl x 23

/-! ### Constants -/

/-- T[j], the round constants (R73). -/
def roundConst (j : Nat) : Word := if j < 16 then 0x79CC4519 else 0x7A879D8A

/-- TROT(j) = ROTL(T[j], j mod 32) (R71; 90_conflicts.md C1). -/
def trot (j : Nat) : Word := rotl (roundConst j) (j % 32)

/-- The initial value IV[0..7] (R74). -/
def iv : ChainState :=
  #v[0x7380166F, 0x4914B2B9, 0x172442D7, 0xDA8A0600, 0xA96F30BC, 0x163138AA, 0xE38DEE4D, 0xB0FB0E4E]

end Sys2Proof.Machine
end

