-- ==== Sys2Proof/Machine/Padding.lean ====
section
/-! DEFINITION. The padding engine and the block split (spec 41_padding.md R76 to R82). -/

namespace Sys2Proof.Machine

/-- A block: 64 bytes (00_scope.md R6). -/
abbrev Block := Vector Byte 64

/-- The number k of zero bytes after 0x80, for a message or tail of `n` bytes: (55 - n) mod 64, the modulus of an
integer that may be negative (R77). -/
def zeroCount (n : Nat) : Nat := ((55 - (n : Int)) % 64).toNat

/-- What padding appends to `n` bytes when the length field is `len`: 0x80, zeros, the length (R76, R79). -/
def padSuffix (n : Nat) (len : BitVec 64) : List Byte :=
  [0x80] ++ List.replicate (zeroCount n) 0 ++ be64bytes len

/-- PAD(m): the whole-message padding that defines SM3 (R76). The length field is 8·N mod 2^64. -/
def pad (m : List Byte) : List Byte := m ++ padSuffix m.length (BitVec.ofNat 64 (8 * m.length))

/-- PAD_TAIL(tail, L): the padding engine as built (R79). One block of 64 bytes, or two. -/
def padTail (tail : List Byte) (len : BitVec 64) : List Byte := tail ++ padSuffix tail.length len

/-- Block b of a byte sequence: bytes 64b to 64b+63 (R78). It is used only where those bytes exist. -/
def blockAt (bs : List Byte) (b : Nat) : Block := Vector.ofFn fun i => bs.getD (64 * b + i.val) 0

end Sys2Proof.Machine
end

