-- ==== Sys2Proof/Machine/Schedule.lean ====
section
/-! DEFINITION. The message scheduler EXPAND (spec 42_message_schedule.md R83 to R87). -/

namespace Sys2Proof.Machine

/-- EXPAND step 1: the block as sixteen big-endian words (R83; 20_memory.md R40). -/
def loadWords (b : Block) : List Word :=
  (List.range 16).map fun i =>
    be32 (b.getD (4 * i) 0) (b.getD (4 * i + 1) 0) (b.getD (4 * i + 2) 0) (b.getD (4 * i + 3) 0)

/-- The word W[i] of EXPAND step 2, from the words W[0..i-1] already computed (R84). -/
def nextWord (ws : List Word) : Word :=
  let i := ws.length
  let w := fun k => ws.getD k 0
  p1 (w (i - 16) ^^^ w (i - 9) ^^^ rotl (w (i - 3)) 15) ^^^ rotl (w (i - 13)) 7 ^^^ w (i - 6)

/-- `n` more words of EXPAND step 2, in increasing i (R84). -/
def extendWords : Nat → List Word → List Word
  | 0, ws => ws
  | n + 1, ws => extendWords n (ws ++ [nextWord ws])

/-- W[0..67] (R83, R84). -/
def expandW (b : Block) : List Word := extendWords 52 (loadWords b)

/-- W′[0..63] from W (R85). -/
def expandW' (ws : List Word) : List Word := (List.range 64).map fun j => ws.getD j 0 ^^^ ws.getD (j + 4) 0

end Sys2Proof.Machine
end

