-- ==== Sys2Proof/Machine/Compression.lean ====
section
/-! DEFINITION. The compression function CF and the digest SM3(m) it defines (spec 43_compression.md R88 to R95;
44_digest_commands.md R107). -/

namespace Sys2Proof.Machine

/-- The working registers A..H of the round loop. Internal to one compression, so no part of State
(10_state.md R32). -/
structure Working where
  a : Word
  b : Word
  c : Word
  d : Word
  e : Word
  f : Word
  g : Word
  h : Word
deriving DecidableEq, Repr

/-- The working registers start as a copy of V (R90). -/
def loadWorking (v : ChainState) : Working := ⟨v[0], v[1], v[2], v[3], v[4], v[5], v[6], v[7]⟩

/-- ROUND(j, (A..H), w, w′) (R89), the update read as a simultaneous assignment (R92). -/
def sm3Round (j : Nat) (r : Working) (w w' : Word) : Working :=
  let ss1 := rotl (rotl r.a 12 + r.e + trot j) 7
  let ss2 := ss1 ^^^ rotl r.a 12
  let tt1 := ff r.a r.b r.c j + r.d + ss2 + w'
  let tt2 := gg r.e r.f r.g j + r.h + ss1 + w
  ⟨tt1, r.a, rotl r.b 9, r.c, p0 tt2, r.e, rotl r.f 19, r.g⟩

/-- The 64 rounds in increasing j, round j with W[j] and W′[j] (R90). -/
def rounds (ws ws' : List Word) (r : Working) : Working :=
  (List.range 64).foldl (fun r j => sm3Round j r (ws.getD j 0) (ws'.getD j 0)) r

/-- The feed-forward: V[k] xor register k, A to 0 and H to 7 (R91). -/
def feedForward (v : ChainState) (r : Working) : ChainState :=
  #v[v[0] ^^^ r.a, v[1] ^^^ r.b, v[2] ^^^ r.c, v[3] ^^^ r.d, v[4] ^^^ r.e, v[5] ^^^ r.f, v[6] ^^^ r.g, v[7] ^^^ r.h]

/-- CF(V, B) (R88). -/
def cf (v : ChainState) (b : Block) : ChainState :=
  let ws := expandW b
  feedForward v (rounds ws (expandW' ws) (loadWorking v))

/-- CF folded over the first `n` blocks of a byte sequence, in order (R95). -/
def compressBlocks (v : ChainState) (bs : List Byte) (n : Nat) : ChainState :=
  (List.range n).foldl (fun v b => cf v (blockAt bs b)) v

/-- SM3(m): CF folded from the IV over every block of PAD(m) (R107). The machine never computes this; claims compare
the machine with it. -/
def sm3 (m : List Byte) : ChainState := compressBlocks iv (pad m) ((pad m).length / 64)

/-- The 32 bytes of a digest: the eight words, most significant byte first (20_memory.md R43). -/
def digestBytes (v : ChainState) : List Byte := v.toList.flatMap wordBytes

end Sys2Proof.Machine
end

