-- ==== Sys2Proof/Machine/State.lean ====
section
/-! DEFINITION. The state of the SM3 hash core, as plain data, and its value after reset (spec 10_state.md R13 to
R34).

The first seven fields are the record S of R13, and nothing else is architectural. The last three are the model's
own: the core acts only when a host does, so State also holds what the host has put on the port, what the port has
answered, and a counter for free values. There is no memory and no program counter (20_memory.md R35; R15). -/

namespace Sys2Proof.Machine

/-- PHASE, the lifecycle state (R20). -/
inductive Phase where
  | fresh
  | accum
  | final
deriving DecidableEq, Repr

/-- ERRCODE, the most recent rejected command (R21). -/
inductive ErrCode where
  | none
  | invalidState
  | illegalCmd
deriving DecidableEq, Repr

/-- The faults of the model. -/
inductive Fault where
  /-- `raise BusError(off)` (60_exceptions.md R116): raised by `accessCheck` on an access of a size other than 4 or at an
  offset that is no multiple of 4. It is "a fault of the host's transaction, not a state of the core": the port
  turns it into the ERROR response and goes on, so no step ends in it. Safe: nothing is claimed of the read's data,
  since an ERROR response has none. -/
  | busError (off : Offset)
deriving DecidableEq, Repr

/-- The refusals of the model. -/
inductive Refusal where
  /-- A command without a meaning yet, by its mnemonic in the opcode table. Raised by an arm of `exec` only; at present by none.
  Safe: the run stops. -/
  | notModelled (mnemonic : String)
deriving DecidableEq, Repr

/-- The core's state. -/
structure State where
  /-- V[0..7], the chaining state A..H (R16). -/
  v : ChainState
  /-- BUF[0..63], the partial-block buffer. Positions at or above BUFLEN are don't-care (R17). -/
  buf : Vector Byte 64
  /-- BUFLEN, the number of valid bytes in BUF: 0 to 63, six bits (R18). -/
  bufLen : BitVec 6
  /-- BITCNT, the message bits consumed, modulo 2^64 (R19). -/
  bitCnt : BitVec 64
  /-- PHASE (R20). -/
  phase : Phase
  /-- ERRCODE (R21). -/
  errCode : ErrCode
  /-- DATA_IN, the data register of the host port (R22). -/
  dataIn : Word
  /-- The port events not yet served, in the order the port accepts them (20_memory.md R47). -/
  pending : List PortEvent
  /-- The responses given so far, the latest first (20_memory.md R36). -/
  responses : List Response
  /-- How many free values have been drawn (log entry 4). -/
  draws : Nat
deriving DecidableEq, Repr

/-- The state right after reset (R34, R128). The spec leaves BUF's contents unspecified and lets a model hold any value
there; this one holds zeros (DESIGN CHOICE, log entry 1). -/
def State.reset : State where
  v := iv
  buf := Vector.replicate 64 0
  bufLen := 0
  bitCnt := 0
  phase := .fresh
  errCode := .none
  dataIn := 0
  pending := []
  responses := []
  draws := 0

end Sys2Proof.Machine
end

