-- ==== Sys2Proof/Machine/Operands.lean ====
section
/-! DEFINITION. Operands. Only UPDATE has any: the encoded NB and the implicit DATA_IN (spec 30_encoding.md R57;
20_memory.md R42). -/

namespace Sys2Proof.Machine

/-- NB as an integer, zero-extended (R57). -/
def byteCount (nb : BitVec 3) : Nat := nb.toNat

/-- The message bytes of `UPDATE n`: byte i is `DATA_IN[31-8i : 24-8i]` for i = 0..n-1; the other bytes of DATA_IN are
ignored (R42). -/
def messageBytes (nb : BitVec 3) (dataIn : Word) : List Byte :=
  (List.range (byteCount nb)).map (byteOfWord dataIn)

end Sys2Proof.Machine
end

