-- ==== Sys2Proof/Machine/Ops.lean ====
section
/-! DEFINITION. The named operations over the state: every write of a field that a command or the port makes
(spec 44_digest_commands.md R101, R103 to R105; 60_exceptions.md R113, R116). -/

namespace Sys2Proof.Machine

/-- What a step and a meaning answer. -/
abbrev Result := Host.Outcome State Fault Refusal

/-! ### The port's bookkeeping -/

/-- Set the queue of port events. -/
def withPending (es : List PortEvent) (s : State) : State := { s with pending := es }

/-- Give a response: every transaction completes with one (20_memory.md R36). -/
def respond (r : Response) (s : State) : State := { s with responses := r :: s.responses }

/-- Give the response `r` once a command has executed in full (20_memory.md R48). -/
def thenRespond (r : Response) : Result → Result
  | .next s => .next (respond r s)
  | .fault f => .fault f
  | .refused e => .refused e

/-! ### Errors: the core's only exceptions (60_exceptions.md R112) -/

/-- `raise CmdError(code)`: ERRCODE records the code, nothing else changes (R113). This is all there is to taking an
exception on this core: no vector, no saved register, no mode (R118); and nothing to return from (R119). -/
def raiseCmdError (code : ErrCode) (s : State) : State := { s with errCode := code }

/-- The size and alignment check, made before anything else: `raise BusError(off)` or go on (20_memory.md R37). -/
def accessCheck (off : Offset) (size : AccessSize) : Except Fault Unit :=
  if size ≠ .word ∨ off.toNat % 4 ≠ 0 then .error (.busError off) else .ok ()

/-- The phase check of UPDATE and FINALIZE: in FINAL the command is rejected with INVALID_STATE, otherwise it has its
effect (44_digest_commands.md R99, R100). -/
def unlessFinal (effect : State → State) (s : State) : Result :=
  if s.phase = .final then .next (raiseCmdError .invalidState s) else .next (effect s)

/-! ### The accumulator (44_digest_commands.md) -/

/-- `S.DATA_IN <- d` (10_state.md R27). -/
def writeDataIn (d : Word) (s : State) : State := { s with dataIn := d }

/-- INIT's assignments (R103). It assigns no byte of BUF, whose contents become don't-care, and not DATA_IN
(log entry 2). -/
def startDigest (s : State) : State :=
  { s with v := iv, bufLen := 0, bitCnt := 0, phase := .fresh, errCode := .none }

/-- ABSORB_BYTE when BUFLEN is not 63: append the byte to the buffer (R101). -/
def storeByte (b : Byte) (s : State) : State :=
  { s with buf := s.buf.set s.bufLen.toNat b s.bufLen.isLt, bufLen := s.bufLen + 1 }

/-- ABSORB_BYTE when BUFLEN is 63: compress BUF[0..62] followed by the byte, and empty the buffer (R101). -/
def compressFull (b : Byte) (s : State) : State :=
  { s with v := cf s.v (s.buf.set 63 b), bufLen := 0 }

/-- ABSORB_BYTE(b) (R101). -/
def absorbByte (s : State) (b : Byte) : State :=
  if s.bufLen = 63 then compressFull b s else storeByte b s

/-- UPDATE's loop: absorb the bytes in order (R104). -/
def absorbBytes (bs : List Byte) (s : State) : State := bs.foldl absorbByte s

/-- UPDATE's last two assignments, for `n` bytes: BITCNT grows by 8n modulo 2^64 and PHASE becomes ACCUM (R104). -/
def countBytes (n : Nat) (s : State) : State :=
  { s with bitCnt := s.bitCnt + BitVec.ofNat 64 (8 * n), phase := .accum }

/-- BUF[0..BUFLEN-1]: the message bytes not yet compressed (10_state.md R17). -/
def bufTail (s : State) : List Byte := s.buf.toList.take s.bufLen.toNat

/-- V after FINALIZE's one or two compressions of the padded tail (R105). -/
def finalChain (s : State) : ChainState :=
  let p := padTail (bufTail s) s.bitCnt
  let v1 := cf s.v (blockAt p 0)
  if p.length = 128 then cf v1 (blockAt p 1) else v1

/-- FINALIZE's assignments: V, BUFLEN and PHASE; BITCNT is unchanged (R105). -/
def publish (s : State) : State := { s with v := finalChain s, bufLen := 0, phase := .final }

end Sys2Proof.Machine
end

