-- ==== Sys2Proof/Machine/Commands.lean ====
section
/-! DEFINITION. The meaning of each command (spec 44_digest_commands.md R99 to R106), phase check included. -/

namespace Sys2Proof.Machine

/-- NOP: nothing changes, in every PHASE (R102). -/
def execNop (s : State) : Result := .next s

/-- INIT: a new digest, in every PHASE (R103). -/
def execInit (s : State) : Result := .next (startDigest s)

/-- What UPDATE does once accepted: absorb the bytes of DATA_IN, count them, enter ACCUM (R104). -/
def updateEffect (nb : BitVec 3) (s : State) : State :=
  countBytes (byteCount nb) (absorbBytes (messageBytes nb s.dataIn) s)

/-- UPDATE n (R104). A byte count above 4 is illegal, and legality is checked before the phase (60_exceptions.md R117);
the decoder never gives such a count. -/
def execUpdate (nb : BitVec 3) (s : State) : Result :=
  if byteCount nb ≤ 4 then unlessFinal (updateEffect nb) s else .next (raiseCmdError .illegalCmd s)

/-- FINALIZE (R105). -/
def execFinalize (s : State) : Result := unlessFinal publish s

end Sys2Proof.Machine
end

