-- ==== Sys2Proof/Machine/Flags.lean ====
section
/-! DEFINITION. The status word (spec 10_state.md R20, R21, R26, R31). The core has no condition codes: PHASE,
ERRCODE and BUFLEN, read through STATUS, are its only status indications. -/

namespace Sys2Proof.Machine

/-- The encoding of PHASE (R20). -/
def phaseCode : Phase → BitVec 2
  | .fresh => 0
  | .accum => 1
  | .final => 2

/-- The encoding of ERRCODE (R21). -/
def errCodeCode : ErrCode → BitVec 2
  | .none => 0
  | .invalidState => 1
  | .illegalCmd => 2

/-- STATUS: BUFLEN in bits 13:8, ERRCODE in 3:2, PHASE in 1:0, every other bit 0 (R26). -/
def statusWord (s : State) : Word :=
  (s.bufLen ++ (0 : BitVec 4) ++ errCodeCode s.errCode ++ phaseCode s.phase).setWidth 32

end Sys2Proof.Machine
end

