-- ==== Sys2Proof/Machine/Registers.lean ====
section
/-! DEFINITION. The register window: which offset is which register, what a read returns, and what a write other
than a command does (spec 10_state.md R24 to R30; 30_encoding.md R63; 20_memory.md R46). -/

namespace Sys2Proof.Machine

/-- The register at an aligned offset: one per word of the window, 0x00 to 0x3C (R24). -/
def regAt (off : Offset) : PortReg :=
  match off.toNat / 4 with
  | 0 => .cmd
  | 1 => .status
  | 2 => .dataIn
  | 3 => .reserved
  | 4 => .bitCntLo
  | 5 => .bitCntHi
  | 6 => .reserved
  | 7 => .reserved
  | n => .digest (Fin.ofNat 8 (n - 8))

/-- DIGESTk: V[k] in FINAL, 0 otherwise (R29). -/
def digestWord (k : Fin 8) (s : State) : Word := if s.phase = .final then s.v[k] else 0

/-- The value a defined read returns. No read changes the state (20_memory.md R46). -/
def readReg (r : PortReg) (s : State) : Word :=
  match r with
  | .cmd => 0
  | .status => statusWord s
  | .dataIn => s.dataIn
  | .bitCntLo => s.bitCnt.extractLsb' 0 32
  | .bitCntHi => s.bitCnt.extractLsb' 32 32
  | .digest k => digestWord k s
  | .reserved => 0

/-- A defined write to a register other than CMD: DATA_IN stores the word, every other register ignores it
(R26 to R30). -/
def writeReg (r : PortReg) (d : Word) (s : State) : State :=
  match r with
  | .dataIn => writeDataIn d s
  | .cmd => s
  | .status => s
  | .bitCntLo => s
  | .bitCntHi => s
  | .digest _ => s
  | .reserved => s

end Sys2Proof.Machine
end

