-- ==== Sys2Proof/Machine/Port.lean ====
section
/-! DEFINITION. The host port: one event is one atomic step (spec 44_digest_commands.md R98, R99, R111; 20_memory.md R36,
R45 to R48; 70_reset_and_hazards.md R128, R129). `step` in Machine/Step.lean is `serve`. -/

namespace Sys2Proof.Machine

/-- Execute the command word `w`: an illegal word is rejected, a legal one runs (R99). -/
def execute (w : Word) (s : State) : Result :=
  match decode w with
  | .error _ => .next (raiseCmdError .illegalCmd s)
  | .ok i => exec i s

/-- Serve a read: ERROR for a bad size or alignment, else the register's value (R111). -/
def serveRead (off : Offset) (size : AccessSize) (s : State) : Result :=
  match accessCheck off size with
  | .error _ => .next (respond .error s)
  | .ok _ => .next (respond (.data (readReg (regAt off) s)) s)

/-- A defined write: CMD executes the word, any other register is written; the response is OK even if the command
was rejected (R98, R111). -/
def serveAlignedWrite (r : PortReg) (d : Word) (s : State) : Result :=
  match r with
  | .cmd => thenRespond .ok (execute d s)
  | .status => .next (respond .ok (writeReg .status d s))
  | .dataIn => .next (respond .ok (writeReg .dataIn d s))
  | .bitCntLo => .next (respond .ok (writeReg .bitCntLo d s))
  | .bitCntHi => .next (respond .ok (writeReg .bitCntHi d s))
  | .digest k => .next (respond .ok (writeReg (.digest k) d s))
  | .reserved => .next (respond .ok (writeReg .reserved d s))

/-- Serve a write: ERROR for a bad size or alignment, with nothing written and nothing executed (R111). -/
def serveWrite (off : Offset) (size : AccessSize) (d : Word) (s : State) : Result :=
  match accessCheck off size with
  | .error _ => .next (respond .error s)
  | .ok _ => serveAlignedWrite (regAt off) d s

/-- Reset: every piece of the core's state takes its reset value (R128). What the host has queued after the reset, the
responses it already has, and the model's counter are no part of the core (log entry 5). -/
def applyReset (s : State) : State :=
  { State.reset with pending := s.pending, responses := s.responses, draws := s.draws }

/-- Draw a free value: the counter advances (log entry 4). -/
def drawFree (s : State) : State := { s with draws := s.draws + 1 }

/-- Give the response an optional value names, if any. -/
def respondIf (r : Option Response) (s : State) : State :=
  match r with
  | none => s
  | some r => respond r s

/-- Reset while a command executes: the command is abandoned, the state is that of reset, and the bus may or may not
answer the abandoned write (R129; log entry 4). -/
def abandonCommand (s : State) : State :=
  respondIf (Config.abandonedResponse s.draws) (drawFree (applyReset s))

/-- Serve the next port event. With none pending the core is idle and keeps its state (60_exceptions.md R127). -/
def serve (s : State) : Result :=
  match s.pending with
  | [] => .next s
  | .read off size :: rest => serveRead off size (withPending rest s)
  | .write off size d :: rest => serveWrite off size d (withPending rest s)
  | .reset :: rest => .next (applyReset (withPending rest s))
  | .resetDuringCommand _ :: rest => .next (abandonCommand (withPending rest s))

end Sys2Proof.Machine
end

