-- ==== Sys2Proof/Machine/Step.lean ====
section
/-! DEFINITION. One step of the machine: one port event (spec 44_digest_commands.md R111). -/

namespace Sys2Proof.Machine

/-- Serve one port event. -/
def step (s : State) : Host.Outcome State Fault Refusal := serve s

/-- The state with a 32-bit write of the command word at the head of the port's queue, so that the next step executes
exactly it. The core fetches nothing (20_memory.md R51): a command comes from a host's write to CMD
(log entry 6). -/
def State.withFetchWord (s : State) (nbits w : Nat) : State :=
  withPending (.write 0x00 .word (tableWord nbits w) :: s.pending) s

end Sys2Proof.Machine
end

