-- ==== Sys2Proof/Machine/BusLayer.lean ====
section
/-! DEFINITION. The port behind its bus: what a bus request does to the core and which reply it gets (spec 00_scope.md R8;
20_memory.md R36). The core's step does not depend on it: a bus carries transactions and changes none. -/

namespace Sys2Proof.Machine

/-- The reply to the response that a step has just given to the transaction `e`. -/
def replyOf (p : BusProtocol) (e : PortEvent) (t : State) : Option (p.Reply × State) :=
  match t.responses with
  | r :: _ => some (p.sendReply e r, t)
  | [] => none

/-- One exchange on the bus: the request is a transaction of the port, the core serves it before anything else, and the bus
carries the response back. A request that is no transaction of the port has no exchange. -/
def busExchange (p : BusProtocol) (q : p.Request) (s : State) : Option (p.Reply × State) :=
  match p.readRequest q with
  | none => none
  | some e =>
    match step (withPending (e :: s.pending) s) with
    | .next t => replyOf p e t
    | .fault _ => none
    | .refused _ => none

end Sys2Proof.Machine
end

