-- ==== Sys2Proof/Machine/Timing.lean ====
section
/-! DEFINITION. How long a transaction occupies the port, in the open parameters of R8 (spec
70_reset_and_hazards.md R138). No other rule depends on it, so no step reads it and State holds no time
(60_exceptions.md R123). -/

namespace Sys2Proof.Machine

/-- The blocks an accepted UPDATE compresses: 0 or 1 (44_digest_commands.md R104). -/
def updateBlocks (nb : BitVec 3) (s : State) : Nat := if s.bufLen.toNat + byteCount nb < 64 then 0 else 1

/-- The blocks an accepted FINALIZE compresses: 1 or 2 (R105). -/
def finalizeBlocks (s : State) : Nat := if s.bufLen.toNat ≤ 55 then 1 else 2

/-- The time of an accepted command (R138). -/
def commandTime (i : Instr) (s : State) : Nat :=
  match i with
  | .nop => if Config.nopUsesInit then Config.latInit else Config.latRead
  | .init => Config.latInit
  | .update nb => Config.latUpdate (byteCount nb) (updateBlocks nb s)
  | .finalize => Config.latFinalize (finalizeBlocks s)

/-- Whether the phase check rejects the command (44_digest_commands.md R99). -/
def rejectedInPhase (i : Instr) (p : Phase) : Bool :=
  match i with
  | .nop => false
  | .init => false
  | .update _ => decide (p = .final)
  | .finalize => decide (p = .final)

/-- The time of a CMD write of `w`; a rejected command has no latency in R138 (log entry 8). -/
def cmdWriteTime (w : Word) (s : State) : Nat :=
  match decode w with
  | .error _ => Config.latUnnamed (.write 0x00 .word w)
  | .ok i => if rejectedInPhase i s.phase then Config.latUnnamed (.write 0x00 .word w) else commandTime i s

/-- The time a transaction served in state `s` occupies the port. A reset is no transaction. -/
def portTime (e : PortEvent) (s : State) : Option Nat :=
  match e with
  | .read off size =>
    match accessCheck off size with
    | .error _ => some (Config.latUnnamed e)
    | .ok _ => some Config.latRead
  | .write off size d =>
    match accessCheck off size with
    | .error _ => some (Config.latUnnamed e)
    | .ok _ =>
      match regAt off with
      | .cmd => some (cmdWriteTime d s)
      | .dataIn => some (if Config.dataInWriteUsesInit then Config.latInit else Config.latRead)
      | .status => some (Config.latUnnamed e)
      | .bitCntLo => some (Config.latUnnamed e)
      | .bitCntHi => some (Config.latUnnamed e)
      | .digest _ => some (Config.latUnnamed e)
      | .reserved => some (Config.latUnnamed e)
  | .reset => none
  | .resetDuringCommand _ => none

end Sys2Proof.Machine
end

