-- ==== Sys2Proof/Machine/HostSide.lean ====
section
/-! DEFINITION. The host's side of the port: host addresses, the assembler's lines and its pseudo-instructions (spec
00_scope.md R8, R10; 30_encoding.md R61 to R63). The machine does not depend on it: it says which port events a host's
accesses and programs are. -/

namespace Sys2Proof.Machine

/-- The offset a host byte address selects, if the address lies in BASE..BASE+0x3F (20_memory.md R35, R38). -/
def windowOffset (addr : Nat) : Option Offset :=
  if Config.base ≤ addr ∧ addr < Config.base + 64 then some (BitVec.ofNat 6 (addr - Config.base)) else none

/-- The size of an access of `n` bytes, if the port has it (R36). -/
def accessSize (n : Nat) : Option AccessSize :=
  match n with
  | 1 => some .byte
  | 2 => some .half
  | 4 => some .word
  | _ => none

/-- `MemRead(addr, n)`: the port event, or none where the access is no transaction of the core (R10, R38). -/
def memRead (addr n : Nat) : Option PortEvent :=
  match windowOffset addr, accessSize n with
  | some off, some size => some (.read off size)
  | _, _ => none

/-- `MemWrite(addr, n, v)`: the port event, or none where the access is no transaction of the core (R10, R38). -/
def memWrite (addr n : Nat) (v : Word) : Option PortEvent :=
  match windowOffset addr, accessSize n with
  | some off, some size => some (.write off size v)
  | _, _ => none

/-- The offset an assembler resolves a register name to (R63). Reserved offsets have no name. -/
def regOffset (r : PortReg) : Option Offset :=
  match r with
  | .cmd => some 0x00
  | .status => some 0x04
  | .dataIn => some 0x08
  | .bitCntLo => some 0x10
  | .bitCntHi => some 0x14
  | .digest k => some (BitVec.ofNat 6 (0x20 + 4 * k.val))
  | .reserved => none

/-- A line of a host program (R61). -/
inductive AsmLine where
  /-- `WR <off>, <value>`. -/
  | wr (off : Offset) (value : Word)
  /-- `RD <off>`, or `RD <off> -> <expected>`. -/
  | rd (off : Offset) (expected : Option Word)
  /-- A command mnemonic of R56. -/
  | command (i : Instr)
  /-- `; text`. -/
  | comment (text : String)
deriving DecidableEq, Repr

/-- The transaction of a line: one each, none for a comment (R61). A mnemonic stands for `WR CMD, <word>` (R61, R62). -/
def AsmLine.event : AsmLine → Option PortEvent
  | .wr off value => some (.write off .word value)
  | .rd off _ => some (.read off .word)
  | .command i => some (.write 0x00 .word (encode i))
  | .comment _ => none

/-- The transactions of a host program, in order (R61). -/
def asmEvents (p : List AsmLine) : List PortEvent := p.filterMap AsmLine.event

/-- `PUSH n, v` (R62). -/
def push (n : BitVec 3) (v : Word) : List AsmLine := [.wr 0x08 v, .command (.update n)]

/-- `ABSORB b0 … b(k-1)` (R62). -/
def absorb : List Byte → List AsmLine
  | b0 :: b1 :: b2 :: b3 :: rest => push 4 (be32 b0 b1 b2 b3) ++ absorb rest
  | [b0, b1, b2] => push 3 (be32 b0 b1 b2 0)
  | [b0, b1] => push 2 (be32 b0 b1 0 0)
  | [b0] => push 1 (be32 b0 0 0 0)
  | [] => []

/-- `READDIGEST` (R62). -/
def readDigest : List AsmLine :=
  (List.range 8).map fun k => .rd (BitVec.ofNat 6 (0x20 + 4 * k)) none

/-- INIT, any sequence of PUSHes, FINALIZE, READDIGEST: a message split into UPDATEs in any way. -/
def hashPushes (ps : List (BitVec 3 × Word)) : List AsmLine :=
  [.command .init] ++ ps.flatMap (fun p => push p.1 p.2) ++ [.command .finalize] ++ readDigest

/-- `HASH b0 … b(k-1)`, the one-shot digest (R62; 44_digest_commands.md R109). -/
def hashLines (bs : List Byte) : List AsmLine :=
  [.command .init] ++ absorb bs ++ [.command .finalize] ++ readDigest

end Sys2Proof.Machine
end

