-- ==== Sys2Proof/Safety.lean ====
section
/-! DEFINITION. The terms claims use: what the next event is, runs, the invariant of reachable states, the message a run
has absorbed, and which states a host cannot tell apart (spec 10_state.md R17, R23; 44_digest_commands.md R96, R97, R110). -/

namespace Sys2Proof.Machine

/-! ### The next event -/

/-- The next event is a reset (R128, R129). -/
def resetsNext (s : State) : Bool :=
  match s.pending with
  | .reset :: _ => true
  | .resetDuringCommand _ :: _ => true
  | _ => false

/-- The word the next event writes to CMD by a 32-bit aligned write, if it does (44_digest_commands.md R98). -/
def nextCommandWord (s : State) : Option Word :=
  match s.pending with
  | .write off size w :: _ => if size = .word ∧ off = 0x00 then some w else none
  | _ => none

/-- The legal command the next event issues, if any (30_encoding.md R58). -/
def nextCommand (s : State) : Option Instr :=
  match nextCommandWord s with
  | some w => (decode w).toOption
  | none => none

/-- The phases in which a command is accepted: UPDATE and FINALIZE outside FINAL, NOP and INIT always (R100). -/
def acceptedIn (i : Instr) (p : Phase) : Prop :=
  match i with
  | .nop => True
  | .init => True
  | .update _ => p ≠ .final
  | .finalize => p ≠ .final

/-! ### Runs -/

/-- `k` steps. -/
def stepN : Nat → State → Result
  | 0, s => .next s
  | k + 1, s =>
    match step s with
    | .next t => stepN k t
    | .fault f => .fault f
    | .refused r => .refused r

/-- A state some host can bring about from reset. -/
def Reachable (s : State) : Prop := ∃ es k, stepN k (withPending es State.reset) = .next s

/-! ### The invariant of R23 -/

/-- R23 as the other rules make it true: item 2 holds outside FINAL only, since FINALIZE sets BUFLEN to 0 and keeps BITCNT
(R105; log entry 7). Items 1 and 6 are in the types. -/
structure Inv (s : State) : Prop where
  bufLen_eq : s.phase ≠ .final → s.bufLen.toNat = s.bitCnt.toNat / 8 % 64
  bitCnt_mod : s.bitCnt.toNat % 8 = 0
  final_empty : s.phase = .final → s.bufLen = 0
  fresh_empty : s.phase = .fresh → s.bufLen = 0 ∧ s.bitCnt = 0

/-- R23's item 2 word for word, for every PHASE. -/
def BufLenMatchesBitCnt (s : State) : Prop := s.bufLen.toNat = s.bitCnt.toNat / 8 % 64

/-! ### The message -/

/-- The message after the next event, if it is `m` before it: an accepted UPDATE appends its bytes, INIT and reset start
an empty message, anything else adds nothing (R97). -/
def messageAfter (s : State) (m : List Byte) : List Byte :=
  if resetsNext s then []
  else match nextCommand s with
    | some .init => []
    | some (.update nb) => if s.phase = .final then m else m ++ messageBytes nb s.dataIn
    | some .nop => m
    | some .finalize => m
    | none => m

/-- The message after `k` steps, if it is `m` before them. -/
def messageAfterN : Nat → State → List Byte → List Byte
  | 0, _, m => m
  | k + 1, s, m =>
    match step s with
    | .next t => messageAfterN k t (messageAfter s m)
    | .fault _ => m
    | .refused _ => m

/-- The state stands for the message `m`: before FINAL, V is CF folded over the full blocks of `m` and BUF[0..BUFLEN-1] is
the rest (R96); in FINAL, V is SM3(m) (R107). BITCNT is 8·len(m) modulo 2^64 (10_state.md R19). -/
structure Holds (s : State) (m : List Byte) : Prop where
  bitCnt_eq : s.bitCnt = BitVec.ofNat 64 (8 * m.length)
  fresh_empty : s.phase = .fresh → m = []
  chain : s.phase ≠ .final → s.v = compressBlocks iv m (m.length / 64)
  tail : s.phase ≠ .final → bufTail s = m.drop (64 * (m.length / 64))
  digest : s.phase = .final → s.v = sm3 m ∧ s.bufLen = 0

/-! ### What a host cannot see -/

/-- The two states differ at most in BUF positions at or above BUFLEN (R17). -/
structure SameUpToDontCare (s t : State) : Prop where
  rest : t = { s with buf := t.buf }
  tail : bufTail s = bufTail t

/-- The two states differ at most in V and BUF (R110). -/
def SameUpToHashState (s t : State) : Prop := t = { s with v := t.v, buf := t.buf }

/-- Through the first `k` steps from `s`, the start and the end included, PHASE is never FINAL. -/
def StaysOutOfFinal : Nat → State → Prop
  | 0, s => s.phase ≠ .final
  | k + 1, s => s.phase ≠ .final ∧ ∀ t, step s = .next t → StaysOutOfFinal k t

end Sys2Proof.Machine
end

