-- ==== Sys2Proof/Certificates/Slice0/Obligations.lean ====
section
/-! DEFINITION. The statements about the SM3 hash core, for the provers. Each follows a numbered rule of the spec, or says
in its docstring what it rests on. -/

open Sys2Proof Sys2Proof.Machine

/-! ### Encoding -/

/-- R58: the decode function's table. Eight words are legal and every other word is illegal. -/
def Obligations.DecodeGivesEightLegalWords : Prop :=
  decode 0x00000000 = .ok .nop ∧ decode 0x00000001 = .ok .init ∧
  decode 0x00000002 = .ok (.update 0) ∧ decode 0x00000012 = .ok (.update 1) ∧
  decode 0x00000022 = .ok (.update 2) ∧ decode 0x00000032 = .ok (.update 3) ∧
  decode 0x00000042 = .ok (.update 4) ∧ decode 0x00000003 = .ok .finalize ∧
  ∀ w : Word, w ∉ [0x00, 0x01, 0x02, 0x12, 0x22, 0x32, 0x42, 0x03] → ∃ e, decode w = .error e

/-- Decode and encode agree, both ways: a word decodes to a command exactly if the command is well-formed and the word
is its encoding. No bit of an encoding is dropped. -/
def Obligations.DecodeAgreesWithEncode : Prop :=
  ∀ (w : Word) (i : Instr), decode w = .ok i ↔ i.wellFormed = true ∧ encode i = w

/-- R59 and R114: the four kinds of illegal word, and no other word is illegal; a CMD write of one is rejected with
ILLEGAL_CMD, code 2, in every PHASE, with ERRCODE the only change. -/
def Obligations.IllegalWordsAreRejected : Prop :=
  ∀ w : Word,
    ((w.extractLsb' 7 25 ≠ 0 ∨ 4 ≤ (w.extractLsb' 0 4).toNat ∨
      ((w.extractLsb' 0 4).toNat ∈ [0, 1, 3] ∧ w.extractLsb' 4 3 ≠ 0) ∨
      ((w.extractLsb' 0 4).toNat = 2 ∧ (w.extractLsb' 4 3).toNat ∈ [5, 6, 7])) ↔ ∃ e, decode w = .error e) ∧
    ∀ (s : State) (rest : List PortEvent), (∃ e, decode w = .error e) → s.pending = .write 0x00 .word w :: rest →
      step s = .next { s with errCode := .illegalCmd, pending := rest, responses := .ok :: s.responses } ∧
      (statusWord { s with errCode := .illegalCmd }).extractLsb' 2 2 = 2

/-! ### The step -/

/-- A step runs the decoded command: with a 32-bit write of a legal word to CMD at the head of the port's queue, the
step is the command's execution in the state without that write, followed by the OK response. -/
def Obligations.StepRunsDecodedCommand : Prop :=
  ∀ (s t : State) (w : Word) (i : Instr) (rest : List PortEvent),
    s.pending = .write 0x00 .word w :: rest → decode w = .ok i →
    exec i { s with pending := rest } = .next t →
    step s = .next { t with responses := .ok :: t.responses }

/-- `withFetchWord` places a command for the very next step: whatever the opcode table's word decodes to is what the
step executes. -/
def Obligations.PlacedWordRunsNext : Prop :=
  ∀ (s : State) (nbits w : Nat) (i : Instr), decodeTableWord nbits w = some i →
    ∃ t, exec i s = .next t ∧ step (s.withFetchWord nbits w) = .next { t with responses := .ok :: t.responses }

/-- R98: a CMD write always gets OK, whether its command is accepted or rejected, and the command has executed before
the response; a rejection is seen in ERRCODE alone. -/
def Obligations.CommandWriteAlwaysGetsOk : Prop :=
  ∀ (s : State) (w : Word) (rest : List PortEvent), s.pending = .write 0x00 .word w :: rest →
    ∃ t, execute w { s with pending := rest } = .next t ∧
      step s = .next { t with responses := .ok :: s.responses } ∧
      ((∀ i, decode w = .ok i → ¬ acceptedIn i s.phase) →
        ∃ code, code ≠ .none ∧ t = { s with pending := rest, errCode := code })

/-- Every step answers a next state: nothing the host does stops the core; and with nothing to serve it keeps its whole
state. -/
def Obligations.StepNeverStops : Prop :=
  (∀ s : State, ∃ t, step s = .next t) ∧ ∀ s : State, s.pending = [] → step s = .next s

/-- Each transaction is served alone, in the order of the queue, and completes with exactly one response: a read with
OK(data) or ERROR, a write with OK or ERROR. -/
def Obligations.OneResponsePerTransaction : Prop :=
  ∀ (s t : State) (rest : List PortEvent) (off : Offset) (size : AccessSize), step s = .next t →
    (s.pending = .read off size :: rest →
      t.pending = rest ∧ (t.responses = .error :: s.responses ∨ ∃ d, t.responses = .data d :: s.responses)) ∧
    ∀ d, s.pending = .write off size d :: rest →
      t.pending = rest ∧ (t.responses = .error :: s.responses ∨ t.responses = .ok :: s.responses)

/-- The read half of the transaction step that R111 gathers from other rules: the response of a read of every offset
and size; a read changes nothing but the queue and the responses. -/
def Obligations.ReadTransactionStep : Prop :=
  ∀ (s : State) (off : Offset) (size : AccessSize) (rest : List PortEvent), s.pending = .read off size :: rest →
    let answer (r : Response) := step s = .next { s with pending := rest, responses := r :: s.responses };
    (size ≠ .word ∨ off.toNat % 4 ≠ 0 → answer .error) ∧
    (size = .word → off = 0x00 → answer (.data 0)) ∧
    (size = .word → off = 0x04 → answer (.data (statusWord s))) ∧
    (size = .word → off = 0x08 → answer (.data s.dataIn)) ∧
    (size = .word → off = 0x10 → answer (.data (s.bitCnt.extractLsb' 0 32))) ∧
    (size = .word → off = 0x14 → answer (.data (s.bitCnt.extractLsb' 32 32))) ∧
    (size = .word → off ∈ [0x0C, 0x18, 0x1C] → answer (.data 0)) ∧
    ∀ k : Fin 8, size = .word → off.toNat = 0x20 + 4 * k.val →
      answer (.data (if s.phase = .final then s.v[k] else 0))

/-- The write half of the transaction step that R111 gathers from other rules: every offset and size. DATA_IN stores
the word; CMD executes it; any other register ignores it and answers OK; a bad access answers ERROR. -/
def Obligations.WriteTransactionStep : Prop :=
  ∀ (s : State) (off : Offset) (size : AccessSize) (d : Word) (rest : List PortEvent),
    s.pending = .write off size d :: rest →
    (size ≠ .word ∨ off.toNat % 4 ≠ 0 →
      step s = .next { s with pending := rest, responses := .error :: s.responses }) ∧
    (size = .word → off = 0x00 →
      ∃ t, execute d { s with pending := rest } = .next t ∧
        step s = .next { t with responses := .ok :: s.responses }) ∧
    (size = .word → off = 0x08 →
      step s = .next { s with pending := rest, dataIn := d, responses := .ok :: s.responses }) ∧
    (size = .word → off.toNat % 4 = 0 → off ≠ 0x00 → off ≠ 0x08 →
      step s = .next { s with pending := rest, responses := .ok :: s.responses })

/-! ### Registers -/

/-- R26: STATUS's fields and reserved bits, its reset value, and that a write to it is ignored with OK. -/
def Obligations.StatusRegisterLayout : Prop :=
  (∀ s : State,
    (statusWord s).extractLsb' 0 2 = phaseCode s.phase ∧ (statusWord s).extractLsb' 2 2 = errCodeCode s.errCode ∧
    (statusWord s).extractLsb' 4 4 = 0 ∧ (statusWord s).extractLsb' 8 6 = s.bufLen ∧
    (statusWord s).extractLsb' 14 18 = 0 ∧
    phaseCode s.phase = (match s.phase with | .fresh => 0 | .accum => 1 | .final => 2) ∧
    errCodeCode s.errCode = (match s.errCode with | .none => 0 | .invalidState => 1 | .illegalCmd => 2)) ∧
  statusWord State.reset = 0 ∧
  ∀ (s : State) (d : Word) (rest : List PortEvent), s.pending = .write 0x04 .word d :: rest →
    step s = .next { s with pending := rest, responses := .ok :: s.responses }

/-- R27: a read of DATA_IN returns the last value written, whatever host events other than a write to it and a reset
come between (said one step at a time), or 0 after reset; a write stores all 32 bits with no other effect; UPDATE
leaves it. -/
def Obligations.DataInHoldsLastWrite : Prop :=
  State.reset.dataIn = 0 ∧
  (∀ (s : State) (d : Word) (rest : List PortEvent), s.pending = .write 0x08 .word d :: rest →
    step s = .next { s with pending := rest, dataIn := d, responses := .ok :: s.responses }) ∧
  (∀ (s : State) (rest : List PortEvent), s.pending = .read 0x08 .word :: rest →
    step s = .next { s with pending := rest, responses := .data s.dataIn :: s.responses }) ∧
  (∀ (s t : State) (nb : BitVec 3), exec (.update nb) s = .next t → t.dataIn = s.dataIn) ∧
  ∀ s t : State, step s = .next t → t.dataIn ≠ s.dataIn →
    (resetsNext s = true ∧ t.dataIn = 0) ∨ ∃ d rest, s.pending = .write 0x08 .word d :: rest ∧ t.dataIn = d

/-- R28: the two halves of BITCNT, both 0 after reset; two reads with no command between them give one value, since no
step but a command's and a reset changes either half; writes are ignored with OK. -/
def Obligations.BitCntReadsAsPair : Prop :=
  (∀ (s : State) (rest : List PortEvent), s.pending = .read 0x10 .word :: .read 0x14 .word :: rest →
    ∃ lo hi : Word, hi ++ lo = s.bitCnt ∧
      stepN 2 s = .next { s with pending := rest, responses := .data hi :: .data lo :: s.responses }) ∧
  (∀ s t : State, step s = .next t → resetsNext s = false → nextCommandWord s = none →
    readReg .bitCntLo t = readReg .bitCntLo s ∧ readReg .bitCntHi t = readReg .bitCntHi s) ∧
  (∀ (s : State) (off : Offset) (d : Word) (rest : List PortEvent), off = 0x10 ∨ off = 0x14 →
    s.pending = .write off .word d :: rest →
    step s = .next { s with pending := rest, responses := .ok :: s.responses }) ∧
  readReg .bitCntLo State.reset = 0 ∧ readReg .bitCntHi State.reset = 0

/-- R29: the digest registers. In FINAL they read V, and the 32-byte digest is their bytes in order (R43); outside
FINAL, and so after reset, they read 0; writes are ignored with OK. -/
def Obligations.DigestRegisters : Prop :=
  (∀ (s : State) (k : Fin 8) (rest : List PortEvent),
    s.pending = .read (BitVec.ofNat 6 (0x20 + 4 * k.val)) .word :: rest →
    step s = .next { s with
      pending := rest, responses := .data (if s.phase = .final then s.v[k] else 0) :: s.responses }) ∧
  (∀ (s : State) (k : Fin 8) (d : Word) (rest : List PortEvent),
    s.pending = .write (BitVec.ofNat 6 (0x20 + 4 * k.val)) .word d :: rest →
    step s = .next { s with pending := rest, responses := .ok :: s.responses }) ∧
  (∀ s : State, s.phase = .final →
    digestBytes s.v = (List.finRange 8).flatMap fun k => wordBytes (readReg (.digest k) s)) ∧
  State.reset.phase ≠ .final

/-- R43: digest byte 4k+i is V[k][31-8i : 24-8i], which is DIGESTk's when PHASE is FINAL. -/
def Obligations.DigestByteOrder : Prop :=
  ∀ (s : State) (k : Fin 8) (i : Fin 4),
    (digestBytes s.v)[4 * k.val + i.val]? = some (s.v[k].extractLsb' (24 - 8 * i.val) 8) ∧
    (s.phase = .final →
      (digestBytes s.v)[4 * k.val + i.val]? = some ((readReg (.digest k) s).extractLsb' (24 - 8 * i.val) 8))

/-- R63: the offset of every named register, which is where the window has that register; reserved offsets have no name. -/
def Obligations.NamedOffsetsSelectTheirRegisters : Prop :=
  regOffset .cmd = some 0x00 ∧ regOffset .status = some 0x04 ∧ regOffset .dataIn = some 0x08 ∧
  regOffset .bitCntLo = some 0x10 ∧ regOffset .bitCntHi = some 0x14 ∧
  (∀ k : Fin 8, ∃ off : Offset, regOffset (.digest k) = some off ∧ off.toNat = 0x20 + 4 * k.val) ∧
  regOffset .reserved = none ∧
  (∀ (r : PortReg) (off : Offset), regOffset r = some off → regAt off = r ∧ off.toNat % 4 = 0) ∧
  ∀ off : Offset, off.toNat % 4 = 0 → regAt off = .reserved → off ∈ [0x0C, 0x18, 0x1C]

/-- The window is BASE to BASE+0x3F: a host access there is the port transaction at that offset, and an access
anywhere else is no transaction of the core. -/
def Obligations.WindowStandsAtBase : Prop :=
  Config.base % 64 = 0 ∧
  (∀ off : Offset, memRead (Config.base + off.toNat) 4 = some (.read off .word) ∧
    ∀ v, memWrite (Config.base + off.toNat) 4 v = some (.write off .word v)) ∧
  ∀ addr n v, (addr < Config.base ∨ Config.base + 64 ≤ addr) → memRead addr n = none ∧ memWrite addr n v = none

/-! ### Commands -/

/-- R102: NOP does nothing, in every state; its encoding is 0 and no other word is NOP. -/
def Obligations.NopChangesNothing : Prop :=
  (∀ s : State, exec .nop s = .next s) ∧ ∀ w : Word, decode w = .ok .nop ↔ w = 0x00000000

/-- R60: the word 0 is the only one whose execution never does anything; UPDATE 0 adds no byte but moves PHASE to ACCUM, and
in FINAL it is rejected with INVALID_STATE. -/
def Obligations.NopIsTheOnlyHint : Prop :=
  (∀ w : Word, (∀ s, execute w s = .next s) ↔ w = 0x00000000) ∧
  decode 0x00000002 = .ok (.update 0) ∧
  ∀ s : State, exec (.update 0) s =
    .next (if s.phase = .final then { s with errCode := .invalidState } else { s with phase := .accum })

/-- R103: INIT, from every state: V takes the IV, the length, the count and the error code are cleared, PHASE is
FRESH, DATA_IN and the port's queues are untouched; the old digest becomes unreadable; INIT twice is INIT once; STATUS
and BITCNT_LO then read 0. -/
def Obligations.InitStartsNewDigest : Prop :=
  decode 0x00000001 = .ok .init ∧
  ∀ s : State, ∃ t, exec .init s = .next t ∧
    t.v = iv ∧ t.bufLen = 0 ∧ t.bitCnt = 0 ∧ t.phase = .fresh ∧ t.errCode = .none ∧
    t.dataIn = s.dataIn ∧ t.pending = s.pending ∧ t.responses = s.responses ∧ t.draws = s.draws ∧
    (∀ k, readReg (.digest k) t = 0) ∧ readReg .status t = 0 ∧ readReg .bitCntLo t = 0 ∧
    exec .init t = .next t

/-- R104: UPDATE n with n = 0..4, outside FINAL. With B the buffered bytes followed by the n message bytes of DATA_IN,
most significant first: fewer than 64 bytes stay buffered and V is unchanged; otherwise V becomes CF of V and the
first 64 of them and the rest is buffered. BITCNT grows by 8n modulo 2^64, PHASE becomes ACCUM, and ERRCODE, DATA_IN
and the port's queues are unchanged. In FINAL it is rejected with INVALID_STATE;
a count above 4 or a reserved bit set is ILLEGAL_CMD. -/
def Obligations.UpdateAbsorbsBytes : Prop :=
  ∀ (s : State) (nb : BitVec 3),
    (nb.toNat ≤ 4 → s.phase ≠ .final →
      ∃ t, exec (.update nb) s = .next t ∧
        (let B := s.buf.toList.take s.bufLen.toNat ++
            (List.range nb.toNat).map fun i => s.dataIn.extractLsb' (24 - 8 * i) 8;
          (s.bufLen.toNat + nb.toNat < 64 → t.v = s.v ∧ t.bufLen.toNat = s.bufLen.toNat + nb.toNat ∧
            t.buf.toList.take t.bufLen.toNat = B) ∧
          (64 ≤ s.bufLen.toNat + nb.toNat → t.v = cf s.v (blockAt B 0) ∧
            t.bufLen.toNat = s.bufLen.toNat + nb.toNat - 64 ∧ t.buf.toList.take t.bufLen.toNat = B.drop 64)) ∧
        t.bitCnt = s.bitCnt + BitVec.ofNat 64 (8 * nb.toNat) ∧ t.phase = .accum ∧ t.errCode = s.errCode ∧
        t.dataIn = s.dataIn ∧ t.pending = s.pending ∧ t.responses = s.responses ∧ t.draws = s.draws) ∧
    (nb.toNat ≤ 4 → s.phase = .final → exec (.update nb) s = .next { s with errCode := .invalidState }) ∧
    (nb.toNat ≤ 4 → decode (0x00000002 ||| (nb.setWidth 32 <<< 4)) = .ok (.update nb)) ∧
    ∀ w : Word, w.extractLsb' 0 4 = 2 → 4 < (w.extractLsb' 4 3).toNat ∨ w.extractLsb' 7 25 ≠ 0 →
      execute w s = .next { s with errCode := .illegalCmd }

/-- The frame of UPDATE on BUF, byte by byte. Without a full block, every position but those the new bytes go to keeps its
byte; with one, position 63 and the positions from the new BUFLEN up to the old BUFLEN keep theirs. For the positions at
or above the new BUFLEN, 63 among them, this is the model's choice (log entry 2): R17 calls them don't-care, and R101
allows storing the byte that fills the block in BUF[63]. -/
def Obligations.UpdateKeepsOtherBufferBytes : Prop :=
  ∀ (s t : State) (nb : BitVec 3) (i : Fin 64), exec (.update nb) s = .next t →
    (s.phase = .final → t.buf = s.buf) ∧
    (s.bufLen.toNat + nb.toNat < 64 → (i.val < s.bufLen.toNat ∨ s.bufLen.toNat + nb.toNat ≤ i.val) →
      t.buf[i] = s.buf[i]) ∧
    (64 ≤ s.bufLen.toNat + nb.toNat →
      (i.val = 63 ∨ (s.bufLen.toNat + nb.toNat - 64 ≤ i.val ∧ i.val < s.bufLen.toNat)) → t.buf[i] = s.buf[i])

/-- FINALIZE, as R105 gives it with PAD_TAIL (R79) written out: outside FINAL it compresses one block if at most 55 bytes
are buffered and two otherwise, sets BUFLEN to 0, enters FINAL and changes nothing else; the digest registers then read V,
until the next INIT or reset. That the bytes of BUF stay, all of them don't-care then (R17), is the model's choice (log
entry 2). In FINAL it is rejected with INVALID_STATE and nothing else changes. A word with OP 3 and any other bit set is
ILLEGAL_CMD. -/
def Obligations.FinalizePublishesDigest : Prop :=
  decode 0x00000003 = .ok .finalize ∧
  ∀ s : State,
    let tail := s.buf.toList.take s.bufLen.toNat
    let n := s.bufLen.toNat
    let done (v : ChainState) := exec .finalize s = .next { s with v := v, bufLen := 0, phase := .final } ∧
      ∀ k : Fin 8, readReg (.digest k) { s with v := v, bufLen := 0, phase := .final } = v[k];
    (s.phase ≠ .final → n ≤ 55 →
      done (cf s.v (blockAt (tail ++ [0x80] ++ List.replicate (55 - n) 0 ++ be64bytes s.bitCnt) 0))) ∧
    (s.phase ≠ .final → 56 ≤ n →
      done (cf (cf s.v (blockAt (tail ++ [0x80] ++ List.replicate (63 - n) 0) 0))
        (blockAt (List.replicate 56 0 ++ be64bytes s.bitCnt) 0))) ∧
    (s.phase = .final → exec .finalize s = .next { s with errCode := .invalidState }) ∧
    (∀ w : Word, w.extractLsb' 0 4 = 3 → w ≠ 0x00000003 → execute w s = .next { s with errCode := .illegalCmd }) ∧
    ∀ t : State, s.phase = .final → step s = .next t → resetsNext s = false → nextCommand s ≠ some .init →
      ∀ k : Fin 8, readReg (.digest k) t = readReg (.digest k) s

/-- R115: a legal UPDATE (UPDATE 0 too) or FINALIZE in FINAL records INVALID_STATE, code 1, and nothing else; the digest
registers still read V. -/
def Obligations.InvalidStateLeavesDigestReadable : Prop :=
  ∀ (s t : State) (i : Instr), s.phase = .final → i.wellFormed = true →
    (i = .finalize ∨ ∃ nb, i = .update nb) → exec i s = .next t →
    t = { s with errCode := .invalidState } ∧ (statusWord t).extractLsb' 2 2 = 1 ∧
    ∀ k : Fin 8, readReg (.digest k) t = s.v[k]

/-- The transition table that R106 derives. A command that its PHASE accepts leads to the PHASE of the table; one that
it rejects, and an illegal word, change ERRCODE alone. -/
def Obligations.PhaseTransitionTable : Prop :=
  (∀ (s t : State) (i : Instr), i.wellFormed = true → exec i s = .next t →
    match i, s.phase with
    | .nop, p => t.phase = p ∧ t = s
    | .init, _ => t.phase = .fresh
    | .update _, .fresh => t.phase = .accum
    | .update _, .accum => t.phase = .accum
    | .update _, .final => t.phase = .final ∧ t = { s with errCode := .invalidState }
    | .finalize, .fresh => t.phase = .final
    | .finalize, .accum => t.phase = .final
    | .finalize, .final => t.phase = .final ∧ t = { s with errCode := .invalidState }) ∧
  (∀ (s : State) (w : Word), (∃ e, decode w = .error e) → execute w s = .next { s with errCode := .illegalCmd }) ∧
  ∀ (s t : State), resetsNext s = true → step s = .next t → t.phase = .fresh

/-- R117: the checks in order. A bad size or alignment gives BusError and executes nothing, whatever the word; then an
illegal word gives ILLEGAL_CMD, also in FINAL; then UPDATE and FINALIZE in FINAL give INVALID_STATE. -/
def Obligations.ErrorPriority : Prop :=
  ∀ (s : State) (w : Word) (rest : List PortEvent),
    (∀ (off : Offset) (size : AccessSize), size ≠ .word ∨ off.toNat % 4 ≠ 0 →
      s.pending = .read off size :: rest ∨ s.pending = .write off size w :: rest →
      step s = .next { s with pending := rest, responses := .error :: s.responses }) ∧
    (s.pending = .write 0x00 .word w :: rest → (∃ e, decode w = .error e) →
      step s = .next { s with pending := rest, errCode := .illegalCmd, responses := .ok :: s.responses }) ∧
    (s.pending = .write 0x00 .word w :: rest → s.phase = .final →
      (decode w = .ok .finalize ∨ ∃ nb, decode w = .ok (.update nb)) →
      step s = .next { s with pending := rest, errCode := .invalidState, responses := .ok :: s.responses })

/-- R37: only 32-bit accesses at multiples of 4 are defined; any other read or write returns ERROR and changes no
state. -/
def Obligations.BusErrorChangesNothing : Prop :=
  ∀ (s : State) (off : Offset) (size : AccessSize) (d : Word) (rest : List PortEvent),
    size ≠ .word ∨ off.toNat % 4 ≠ 0 →
    s.pending = .read off size :: rest ∨ s.pending = .write off size d :: rest →
    step s = .next { s with pending := rest, responses := .error :: s.responses }

/-! ### What changes each piece of state -/

/-- R16: V's writers. Reset and INIT load the IV; an UPDATE that fills the buffer replaces V with CF of it, FINALIZE does
so once or twice; nothing else writes V. V is the IV after reset. -/
def Obligations.ChainingStateWriters : Prop :=
  State.reset.v = iv ∧
  ∀ s t : State, step s = .next t →
    if resetsNext s then t.v = iv
    else match nextCommand s with
      | some .init => t.v = iv
      | some (.update nb) =>
        if s.phase ≠ .final ∧ 64 ≤ s.bufLen.toNat + nb.toNat then ∃ b, t.v = cf s.v b else t.v = s.v
      | some .finalize =>
        if s.phase = .final then t.v = s.v
        else if s.bufLen.toNat ≤ 55 then ∃ b, t.v = cf s.v b
        else ∃ b c, t.v = cf (cf s.v b) c
      | some .nop => t.v = s.v
      | none => t.v = s.v

/-- R18: BUFLEN is always below 64, is written by UPDATE, and is 0 after INIT, FINALIZE and reset; STATUS shows it. -/
def Obligations.BufLenWriters : Prop :=
  State.reset.bufLen = 0 ∧
  ∀ s t : State, step s = .next t →
    t.bufLen.toNat < 64 ∧ (statusWord t).extractLsb' 8 6 = t.bufLen ∧
    if resetsNext s then t.bufLen = 0
    else match nextCommand s with
      | some .init => t.bufLen = 0
      | some .finalize => t.bufLen = if s.phase = .final then s.bufLen else 0
      | some (.update nb) =>
        t.bufLen.toNat = if s.phase = .final then s.bufLen.toNat else (s.bufLen.toNat + nb.toNat) % 64
      | some .nop => t.bufLen = s.bufLen
      | none => t.bufLen = s.bufLen

/-- R19: BITCNT is 0 after reset and INIT, grows by 8n modulo 2^64 with every accepted UPDATE of n bytes, and is left
unchanged by FINALIZE and everything else; BITCNT_LO and BITCNT_HI read it. -/
def Obligations.BitCntCountsMessageBits : Prop :=
  State.reset.bitCnt = 0 ∧
  (∀ s : State, (readReg .bitCntHi s ++ readReg .bitCntLo s : BitVec 64) = s.bitCnt) ∧
  ∀ s t : State, step s = .next t →
    t.bitCnt =
      if resetsNext s then 0
      else match nextCommand s with
        | some .init => 0
        | some (.update nb) => if s.phase = .final then s.bitCnt else s.bitCnt + BitVec.ofNat 64 (8 * nb.toNat)
        | some .finalize => s.bitCnt
        | some .nop => s.bitCnt
        | none => s.bitCnt

/-- R20: PHASE's transitions; rejected commands, NOP and everything that is no command leave it unchanged. FRESH and
ACCUM accept the same commands with the same effects. -/
def Obligations.PhaseWriters : Prop :=
  State.reset.phase = .fresh ∧ phaseCode .fresh = 0 ∧ phaseCode .accum = 1 ∧ phaseCode .final = 2 ∧
  (∀ s t : State, step s = .next t →
    t.phase =
      if resetsNext s then .fresh
      else match nextCommand s with
        | some .init => .fresh
        | some (.update _) => if s.phase = .final then .final else .accum
        | some .finalize => .final
        | some .nop => s.phase
        | none => s.phase) ∧
  ∀ (s t u : State) (i : Instr), s.phase = .fresh → i ≠ .nop → exec i s = .next t →
    exec i { s with phase := .accum } = .next u → i.wellFormed = true → t = u

/-- R21: ERRCODE is NONE after reset and INIT, records the code of a rejected command, and is sticky otherwise. -/
def Obligations.ErrCodeIsSticky : Prop :=
  State.reset.errCode = .none ∧
  errCodeCode .none = 0 ∧ errCodeCode .invalidState = 1 ∧ errCodeCode .illegalCmd = 2 ∧
  ∀ s t : State, step s = .next t →
    t.errCode =
      if resetsNext s then .none
      else match nextCommandWord s with
        | none => s.errCode
        | some w => match decode w with
          | .error _ => .illegalCmd
          | .ok .init => .none
          | .ok (.update _) => if s.phase = .final then .invalidState else s.errCode
          | .ok .finalize => if s.phase = .final then .invalidState else s.errCode
          | .ok .nop => s.errCode

/-! ### Reset -/

/-- R128: the reset value of every piece of state for which the spec gives one, right after reset and when reset is
asserted in any state (the IV's words: SuppliedConstants). BUF's is unspecified, and the model's zeros (log entry 1)
are not claimed; nor is it that the queue and the responses survive a reset (log entry 5). -/
def Obligations.ResetValues : Prop :=
  let hasResetValues (t : State) :=
    t.v = iv ∧ t.bufLen = 0 ∧ t.bitCnt = 0 ∧ t.phase = .fresh ∧ t.errCode = .none ∧ t.dataIn = 0;
  hasResetValues State.reset ∧
  ∀ (s : State) (rest : List PortEvent), s.pending = .reset :: rest → ∃ t, step s = .next t ∧ hasResetValues t

/-- A reset while a CMD write executes abandons the command, whatever its word: no compression of it reaches V, and the
core's state has the values of R128 (what R129 says). The rest is the model's choice: BUF is as after a plain reset (log
entry 1), the queue behind the reset and the earlier responses survive it (log entry 5), and at most one response is
added (log entry 4). -/
def Obligations.ResetAbandonsCommand : Prop :=
  ∀ (s : State) (w : Word) (rest : List PortEvent), s.pending = .resetDuringCommand w :: rest →
    ∃ t u, step s = .next t ∧ step { s with pending := .reset :: rest } = .next u ∧
      t = { u with responses := t.responses, draws := t.draws } ∧
      t.v = iv ∧ t.bufLen = 0 ∧ t.bitCnt = 0 ∧ t.phase = .fresh ∧ t.errCode = .none ∧ t.dataIn = 0 ∧
      (t.responses = s.responses ∨ ∃ r, t.responses = r :: s.responses)

/-- What R130 derives: after reset the core needs no INIT: it holds what INIT leaves, but for DATA_IN, which is 0, and
BUF; and STATUS reads 0. -/
def Obligations.ResetIsInitPlusDataIn : Prop :=
  statusWord State.reset = 0 ∧ State.reset.dataIn = 0 ∧
  ∀ s t : State, exec .init s = .next t →
    t.v = State.reset.v ∧ t.bufLen = State.reset.bufLen ∧ t.bitCnt = State.reset.bitCnt ∧
    t.phase = State.reset.phase ∧ t.errCode = State.reset.errCode ∧ t.dataIn = s.dataIn

/-! ### Word operations, padding, expansion, compression -/

/-- R64: ROTL moves bit i of the result from bit i - n modulo 32; n is taken modulo 32 and n = 0 is the identity. -/
def Obligations.RotlMovesBits : Prop :=
  ∀ (x : Word) (n : Nat), (∀ i < 32, (rotl x n).getLsbD i = x.getLsbD ((i + 32 - n % 32) % 32)) ∧
    rotl x n = rotl x (n % 32) ∧ rotl x 0 = x

/-- R65 and R66, bit by bit: exclusive-or for j < 16; from 16 on FF is the majority and GG the choice by x. -/
def Obligations.BooleanMixes : Prop :=
  ∀ (x y z : Word) (j i : Nat), i < 32 →
    (j < 16 → (ff x y z j).getLsbD i = (x.getLsbD i ^^ y.getLsbD i ^^ z.getLsbD i) ∧ gg x y z j = ff x y z j) ∧
    (16 ≤ j →
      (ff x y z j).getLsbD i =
        decide (2 ≤ (x.getLsbD i).toNat + (y.getLsbD i).toNat + (z.getLsbD i).toNat) ∧
      (gg x y z j).getLsbD i = if x.getLsbD i then y.getLsbD i else z.getLsbD i)

/-- R67 and R68, bit by bit, with the rules' corner cases. -/
def Obligations.Permutations : Prop :=
  (∀ (x : Word) (i : Nat), i < 32 →
    (p0 x).getLsbD i = (x.getLsbD i ^^ x.getLsbD ((i + 23) % 32) ^^ x.getLsbD ((i + 15) % 32)) ∧
    (p1 x).getLsbD i = (x.getLsbD i ^^ x.getLsbD ((i + 17) % 32) ^^ x.getLsbD ((i + 9) % 32))) ∧
  p0 0 = 0 ∧ p0 0xFFFFFFFF = 0xFFFFFFFF ∧ p1 0 = 0 ∧ p1 0xFFFFFFFF = 0xFFFFFFFF

/-- R71: the round constant of round j is rotated left by j mod 32, not by j: rounds 0 and 32 rotate by nothing, and
rounds j and j+32 by the same amount. -/
def Obligations.RoundConstantsRotated : Prop :=
  (∀ j < 64, trot j = (roundConst j).rotateLeft (j % 32)) ∧
  trot 0 = roundConst 0 ∧ trot 32 = roundConst 32 ∧
  ∀ j < 32, ∃ n, trot j = (roundConst j).rotateLeft n ∧ trot (j + 32) = (roundConst (j + 32)).rotateLeft n

/-- The constants that the spec supplies "from general knowledge, not in source": the IV (R74), T (R73), and the rotated
constants that R71 and V9 derive from them. -/
def Obligations.SuppliedConstants : Prop :=
  iv = #v[0x7380166F, 0x4914B2B9, 0x172442D7, 0xDA8A0600, 0xA96F30BC, 0x163138AA, 0xE38DEE4D, 0xB0FB0E4E] ∧
  (∀ j < 64, roundConst j = if j < 16 then 0x79CC4519 else 0x7A879D8A) ∧
  trot 1 = 0xF3988A32 ∧ trot 15 = 0x228CBCE6 ∧ trot 16 = 0x9D8A7A87 ∧ trot 31 = 0x3D43CEC5 ∧ trot 33 = 0xF50F3B14 ∧
  trot 63 = 0x3D43CEC5

/-- What R77 and R78 derive: padding appends the unique k in 0..63 that makes a whole number of blocks, and there are
floor(N/64) + 1 of them, or one more if N mod 64 exceeds 55. -/
def Obligations.PaddedLengthIsWholeBlocks : Prop :=
  ∀ (m : List Byte),
    let N := m.length;
    (∀ k, (k < 64 ∧ (N + 1 + k) % 64 = 56) ↔ k = zeroCount N) ∧
    (pad m).length = N + 1 + zeroCount N + 8 ∧ (pad m).length % 64 = 0 ∧
    (pad m).length / 64 = N / 64 + (if N % 64 ≤ 55 then 1 else 2)

/-- What R80 derives from R79: the blocks of the padded tail, by the number n of buffered bytes. -/
def Obligations.PaddedTailCases : Prop :=
  ∀ (tail : List Byte) (len : BitVec 64),
    (tail.length ≤ 55 →
      padTail tail len = tail ++ [0x80] ++ List.replicate (55 - tail.length) 0 ++ be64bytes len ∧
      (padTail tail len).length = 64) ∧
    (56 ≤ tail.length → tail.length ≤ 63 →
      (padTail tail len).take 64 = tail ++ [0x80] ++ List.replicate (63 - tail.length) 0 ∧
      (padTail tail len).drop 64 = List.replicate 56 0 ++ be64bytes len ∧
      (padTail tail len).length = 128)

/-- What R81 derives: padding the whole message and padding the tail alone agree. -/
def Obligations.TailPaddingAgreesWithWhole : Prop :=
  ∀ m : List Byte,
    pad m = m.take (64 * (m.length / 64)) ++
      padTail (m.drop (64 * (m.length / 64))) (BitVec.ofNat 64 (8 * m.length))

/-- R83, R84 and R85: the 68 words W and the 64 words W′ of a block. -/
def Obligations.ExpansionRecurrence : Prop :=
  ∀ b : Block,
    let W (i : Nat) := (expandW b).getD i 0;
    (expandW b).length = 68 ∧ (expandW' (expandW b)).length = 64 ∧
    (∀ i < 16, W i = b.getD (4 * i) 0 ++ b.getD (4 * i + 1) 0 ++ b.getD (4 * i + 2) 0 ++ b.getD (4 * i + 3) 0) ∧
    (∀ i, 16 ≤ i → i < 68 →
      W i = p1 (W (i - 16) ^^^ W (i - 9) ^^^ rotl (W (i - 3)) 15) ^^^ rotl (W (i - 13)) 7 ^^^ W (i - 6)) ∧
    ∀ j < 64, (expandW' (expandW b)).getD j 0 = W j ^^^ W (j + 4)

/-- The corner cases that R86 derives: the all-zero block and the all-0xFF block. -/
def Obligations.ExpansionCornerBlocks : Prop :=
  expandW (Vector.replicate 64 0) = List.replicate 68 0 ∧
  expandW' (expandW (Vector.replicate 64 0)) = List.replicate 64 0 ∧
  expandW (Vector.replicate 64 0xFF) = List.replicate 68 0xFFFFFFFF ∧
  expandW' (expandW (Vector.replicate 64 0xFF)) = List.replicate 64 0

/-- R88 to R91: CF expands the block and runs 64 rounds in increasing j from a copy of V, round j with W[j] and W′[j] (R89's
formulas, each right-hand side read before the round), and xors the last registers into V, A to 0 and H to 7. -/
def Obligations.CompressionIsSixtyFourRounds : Prop :=
  ∀ (v : ChainState) (b : Block), ∃ r : Nat → Working,
    r 0 = ⟨v[0], v[1], v[2], v[3], v[4], v[5], v[6], v[7]⟩ ∧
    (∀ j < 64,
      let ss1 := ((r j).a.rotateLeft 12 + (r j).e + trot j).rotateLeft 7
      let ss2 := ss1 ^^^ (r j).a.rotateLeft 12
      let tt1 := ff (r j).a (r j).b (r j).c j + (r j).d + ss2 + (expandW' (expandW b)).getD j 0
      let tt2 := gg (r j).e (r j).f (r j).g j + (r j).h + ss1 + (expandW b).getD j 0;
      r (j + 1) = ⟨tt1, (r j).a, (r j).b.rotateLeft 9, (r j).c, p0 tt2, (r j).e, (r j).f.rotateLeft 19, (r j).g⟩) ∧
    cf v b = #v[v[0] ^^^ (r 64).a, v[1] ^^^ (r 64).b, v[2] ^^^ (r 64).c, v[3] ^^^ (r 64).d,
      v[4] ^^^ (r 64).e, v[5] ^^^ (r 64).f, v[6] ^^^ (r 64).g, v[7] ^^^ (r 64).h]

/-- The check that R75 derives: the rules with the supplied constants give the source's digest of "abc". -/
def Obligations.AbcDigest : Prop :=
  sm3 [0x61, 0x62, 0x63] =
    #v[0x66C7F0F4, 0x62EEEDD9, 0xD1F2D46B, 0xDC10E4E2, 0x4167C487, 0x5CF2F7A2, 0x297DA02B, 0x8F4BA8E0]

/-- R42: the byte lanes of UPDATE n, most significant byte first; the low-order rest of DATA_IN is ignored; and a word
written with n = 4 at a position that is a multiple of 4 is, unchanged, a word W[i] of the block. A big-endian word of
the message written with n = 4 delivers its bytes in order. -/
def Obligations.DataInByteLanes : Prop :=
  (∀ (nb : BitVec 3) (d : Word) (i : Nat), nb.toNat ≤ 4 → i < nb.toNat →
    (messageBytes nb d)[i]? = some (d.extractLsb' (24 - 8 * i) 8) ∧ (messageBytes nb d).length = nb.toNat) ∧
  (∀ (nb : BitVec 3) (d d' : Word), nb.toNat ≤ 4 →
    (∀ i, 32 - 8 * nb.toNat ≤ i → d.getLsbD i = d'.getLsbD i) → messageBytes nb d = messageBytes nb d') ∧
  (∀ b0 b1 b2 b3 : Byte, messageBytes 4 (b0 ++ b1 ++ b2 ++ b3) = [b0, b1, b2, b3]) ∧
  ∀ (pre post : List Byte) (d : Word) (i : Nat), pre.length = 4 * i → i < 16 →
    (loadWords (blockAt (pre ++ messageBytes 4 d ++ post) 0)).getD i 0 = d

/-! ### The digest of a message -/

/-- R96: one step keeps the accumulator in step with the message. If the state stands for the message m, the next
state stands for m followed by the bytes of the step, if it is an accepted UPDATE. -/
def Obligations.StepKeepsMessage : Prop :=
  ∀ (s t : State) (m : List Byte), Holds s m → step s = .next t → Holds t (messageAfter s m)

/-- Reset and INIT leave a state that stands for the empty message. -/
def Obligations.ResetAndInitHoldEmptyMessage : Prop :=
  Holds State.reset [] ∧ ∀ s t : State, exec .init s = .next t → Holds t []

/-- Digest correctness, as R107 derives it. From any state that INIT (or reset) leaves, through any sequence of port
events whose accepted UPDATEs make the message m, then FINALIZE: the digest registers read SM3(m). The events between
may be NOPs, reads, DATA_IN writes and rejected commands, and the split of m into UPDATEs is arbitrary. (It is stated
without the rule's bound on the length: a longer message has its length field modulo 2^64, R76.) -/
def Obligations.DigestIsSm3OfMessage : Prop :=
  ∀ (k : Nat) (s s₀ t u : State), exec .init s = .next s₀ ∨ (∃ es, s₀ = withPending es State.reset) →
    stepN k s₀ = .next t → t.phase ≠ .final → exec .finalize t = .next u →
    ∀ j : Fin 8, readReg (.digest j) u = (sm3 (messageAfterN k s₀ []))[j]

/-- Chunking invariance, end to end: INIT, any PUSHes of 0 to 4 bytes each, FINALIZE and eight digest reads, from any
state, answer the eight words of SM3 of the bytes pushed, however they are split. -/
def Obligations.AnySplitGivesSm3 : Prop :=
  ∀ (s : State) (ps : List (BitVec 3 × Word)) (rest : List PortEvent),
    (∀ p ∈ ps, p.1.toNat ≤ 4) → s.pending = asmEvents (hashPushes ps) ++ rest →
    ∃ t, stepN (asmEvents (hashPushes ps)).length s = .next t ∧ t.pending = rest ∧ t.phase = .final ∧
      t.v = sm3 (ps.flatMap fun p => messageBytes p.1 p.2) ∧
      t.responses.take 8 = (t.v.toList.map Response.data).reverse

/-- The one-shot digest as R109 derives it, and as the host performs it. HASH of N bytes, from any state, answers SM3
of them in eight words; it takes ceil(N / 4) UPDATE commands. -/
def Obligations.HashProgramAnswersSm3 : Prop :=
  ∀ (s : State) (m : List Byte) (rest : List PortEvent), s.pending = asmEvents (hashLines m) ++ rest →
    (∃ t, stepN (asmEvents (hashLines m)).length s = .next t ∧ t.pending = rest ∧ t.phase = .final ∧
      t.v = sm3 m ∧ t.responses.take 8 = ((sm3 m).toList.map Response.data).reverse) ∧
    (absorb m).countP (fun l => match l with | .command (.update _) => true | _ => false) = (m.length + 3) / 4

/-! ### Invariants and what the host cannot see -/

/-- Every step keeps the invariant of R23, read as log entry 7 says. -/
def Obligations.StepKeepsInvariant : Prop := ∀ s t : State, Inv s → step s = .next t → Inv t

/-- The invariant holds after reset. -/
def Obligations.ResetMeetsInvariant : Prop := Inv State.reset

/-- R23's item 2 word for word, of every reachable state. The model says it fails: after FINALIZE of a message whose
length is no multiple of 64, BUFLEN is 0 and BITCNT keeps the length (R105; log entry 7). -/
def Obligations.BufLenMatchesBitCntEverywhere : Prop := ∀ s : State, Reachable s → BufLenMatchesBitCnt s

/-- BUF positions at or above BUFLEN are unobservable (R17): two states that differ in them alone give the same
responses and the same state, but for such positions, after any number of steps. -/
def Obligations.BufferDontCaresAreUnobservable : Prop :=
  ∀ (k : Nat) (s t s' t' : State), SameUpToDontCare s t → stepN k s = .next s' → stepN k t = .next t' →
    SameUpToDontCare s' t'

/-- R110: no partial results. While PHASE stays out of FINAL, nothing a host does tells apart two states that differ
in V and BUF alone: the responses, STATUS, BITCNT and everything else stay equal; and DIGESTk reads 0. -/
def Obligations.NoPartialResults : Prop :=
  (∀ (k : Nat) (s t s' t' : State), SameUpToHashState s t → StaysOutOfFinal k s →
    stepN k s = .next s' → stepN k t = .next t' → SameUpToHashState s' t' ∧ s'.responses = t'.responses) ∧
  ∀ (s : State) (k : Fin 8), s.phase ≠ .final → readReg (.digest k) s = 0

/-- The times of transactions. Every transaction has a finite, positive time; that of one R138 does not name is the model's
parameter (log entry 8). R138 gives a read, a DATA_IN write, NOP and INIT "LAT_READ or LAT_INIT": the statement allows
both but for a read, whose time is LAT_READ by the model's deduction (log entry 8). LAT_UPDATE is for an accepted UPDATE,
with 0 or 1 blocks, LAT_FINALIZE for an accepted FINALIZE, with 1 or 2. -/
def Obligations.TransactionsTakeFiniteTime : Prop :=
  (∀ (s : State) (e : PortEvent), e ≠ .reset → (∀ w, e ≠ .resetDuringCommand w) → ∃ n, portTime e s = some n ∧ 0 < n) ∧
  (∀ (s : State) (off : Offset), off.toNat % 4 = 0 → portTime (.read off .word) s = some Config.latRead) ∧
  (∀ (s : State) (d : Word), portTime (.write 0x08 .word d) s ∈ [some Config.latRead, some Config.latInit]) ∧
  (∀ s : State, portTime (.write 0x00 .word (encode .nop)) s ∈ [some Config.latRead, some Config.latInit] ∧
    portTime (.write 0x00 .word (encode .init)) s ∈ [some Config.latRead, some Config.latInit]) ∧
  ∀ s : State, s.phase ≠ .final →
    (∀ nb : BitVec 3, nb.toNat ≤ 4 → ∃ blocks ∈ [0, 1],
      portTime (.write 0x00 .word (encode (.update nb))) s = some (Config.latUpdate nb.toNat blocks)) ∧
    ∃ blocks ∈ [1, 2], portTime (.write 0x00 .word (encode .finalize)) s = some (Config.latFinalize blocks)

/-! ### The bus -/

/-- The platform's bus carries the port one to one (R8's constraint on BUS_PROTOCOL, and R36). Different transactions are
different requests, and different responses to one transaction different replies, so ERROR is distinct from OK. The
exchange of every transaction is the step that serves it, with one response, of the kind R36 gives the transaction, carried
back to the host. That the exchange goes before what `pending` holds is the model's choice (log entry 11). -/
def Obligations.BusCarriesPortOneToOne : Prop :=
  let p := Config.busProtocol
  (∀ e e' : PortEvent, e.isTransaction = true → e'.isTransaction = true → p.sendRequest e = p.sendRequest e' → e = e') ∧
  (∀ (e : PortEvent) (r r' : Response), r.answers e = true → r'.answers e = true →
    p.sendReply e r = p.sendReply e r' → r = r') ∧
  ∀ (s : State) (e : PortEvent), e.isTransaction = true →
    ∃ t r, step (withPending (e :: s.pending) s) = .next t ∧ t.pending = s.pending ∧ t.responses = r :: s.responses ∧
      r.answers e = true ∧ busExchange p (p.sendRequest e) s = some (p.sendReply e r, t) ∧
      p.readReply e (p.sendReply e r) = some r
end

