-- ==== Sys2Proof/Laws/Blocks.lean ====
section
/-! SUPPORT. Blocks of a byte sequence and CF folded over them (spec 41_padding.md R78; 43_compression.md R95): how both
behave under appending and dropping whole blocks. -/

namespace Sys2Proof.Machine

theorem blockAt_get (bs : List Byte) (b : Nat) (i : Nat) (hi : i < 64) :
    (blockAt bs b)[i] = bs.getD (64 * b + i) 0 := by
  simp [blockAt]

/-- A block that lies within the first sequence does not see what is appended. -/
theorem blockAt_append {xs : List Byte} (ys : List Byte) {b : Nat} (h : 64 * (b + 1) ≤ xs.length) :
    blockAt (xs ++ ys) b = blockAt xs b := by
  apply Vector.ext
  intro i hi
  rw [blockAt_get _ _ _ hi, blockAt_get _ _ _ hi, List.getD_append]
  omega

/-- Dropping `m` blocks renumbers the blocks. -/
theorem blockAt_drop (bs : List Byte) (m b : Nat) : blockAt (bs.drop (64 * m)) b = blockAt bs (m + b) := by
  apply Vector.ext
  intro i hi
  rw [blockAt_get _ _ _ hi, blockAt_get _ _ _ hi]
  simp only [List.getD_eq_getElem?_getD, List.getElem?_drop]
  congr 2
  omega

@[simp] theorem compressBlocks_zero (v : ChainState) (bs : List Byte) : compressBlocks v bs 0 = v := rfl

theorem compressBlocks_succ (v : ChainState) (bs : List Byte) (n : Nat) :
    compressBlocks v bs (n + 1) = cf (compressBlocks v bs n) (blockAt bs n) := by
  simp [compressBlocks, List.range_succ]

theorem compressBlocks_one (v : ChainState) (bs : List Byte) : compressBlocks v bs 1 = cf v (blockAt bs 0) := rfl

/-- Only the blocks compressed matter, so what follows them may change. -/
theorem compressBlocks_append (v : ChainState) {xs : List Byte} (ys : List Byte) {n : Nat} (h : 64 * n ≤ xs.length) :
    compressBlocks v (xs ++ ys) n = compressBlocks v xs n := by
  induction n with
  | zero => simp
  | succ n ih => rw [compressBlocks_succ, compressBlocks_succ, ih (by omega), blockAt_append ys h]

/-- Compressing `m` blocks and then `n` more of the rest is compressing `m + n` blocks. -/
theorem compressBlocks_add (v : ChainState) (bs : List Byte) (m n : Nat) :
    compressBlocks v bs (m + n) = compressBlocks (compressBlocks v bs m) (bs.drop (64 * m)) n := by
  induction n with
  | zero => simp
  | succ n ih => rw [← Nat.add_assoc, compressBlocks_succ, compressBlocks_succ, ih, blockAt_drop]

end Sys2Proof.Machine
end

