-- ==== Sys2Proof/Laws/BusLayer.lean ====
section
/-! SUPPORT. What the receiver of a bus request or reply understands, and what an exchange is once the step is known (spec
00_scope.md R8). -/

namespace Sys2Proof.Machine

/-- The port understands the transaction that was sent. -/
@[simp] theorem readRequest_sendRequest (p : BusProtocol) {e : PortEvent} (h : e.isTransaction = true) :
    p.readRequest (p.sendRequest e) = some e := (p.request_iff e _).2 ⟨h, rfl⟩

/-- The host understands the response that was sent. -/
@[simp] theorem readReply_sendReply (p : BusProtocol) {e : PortEvent} {r : Response} (h : r.answers e = true) :
    p.readReply e (p.sendReply e r) = some r := (p.reply_iff e r _).2 ⟨h, rfl⟩

/-- The exchange of a transaction is the step that serves it and the reply to its response. -/
theorem busExchange_of_step (p : BusProtocol) {e : PortEvent} {s t : State} {r : Response} {rs : List Response}
    (he : e.isTransaction = true) (hs : step (withPending (e :: s.pending) s) = .next t) (hr : t.responses = r :: rs) :
    busExchange p (p.sendRequest e) s = some (p.sendReply e r, t) := by
  simp only [busExchange, readRequest_sendRequest p he, hs, replyOf, hr]

/-- What is no transaction of the port has no exchange. -/
theorem busExchange_of_none (p : BusProtocol) {q : p.Request} (h : p.readRequest q = none) (s : State) :
    busExchange p q s = none := by
  simp only [busExchange, h]

end Sys2Proof.Machine
end

