-- ==== Sys2Proof/Laws/State.lean ====
section
/-! SUPPORT. One lemma per field and named update of State, so that no later proof unfolds a record update. -/

namespace Sys2Proof.Machine

variable (s : State)

/-! ### withPending -/

@[simp] theorem withPending_v (es : List PortEvent) : (withPending es s).v = s.v := rfl
@[simp] theorem withPending_buf (es : List PortEvent) : (withPending es s).buf = s.buf := rfl
@[simp] theorem withPending_bufLen (es : List PortEvent) : (withPending es s).bufLen = s.bufLen := rfl
@[simp] theorem withPending_bitCnt (es : List PortEvent) : (withPending es s).bitCnt = s.bitCnt := rfl
@[simp] theorem withPending_phase (es : List PortEvent) : (withPending es s).phase = s.phase := rfl
@[simp] theorem withPending_errCode (es : List PortEvent) : (withPending es s).errCode = s.errCode := rfl
@[simp] theorem withPending_dataIn (es : List PortEvent) : (withPending es s).dataIn = s.dataIn := rfl
@[simp] theorem withPending_pending (es : List PortEvent) : (withPending es s).pending = es := rfl
@[simp] theorem withPending_responses (es : List PortEvent) : (withPending es s).responses = s.responses := rfl
@[simp] theorem withPending_draws (es : List PortEvent) : (withPending es s).draws = s.draws := rfl

/-! ### respond -/

@[simp] theorem respond_v (r : Response) : (respond r s).v = s.v := rfl
@[simp] theorem respond_buf (r : Response) : (respond r s).buf = s.buf := rfl
@[simp] theorem respond_bufLen (r : Response) : (respond r s).bufLen = s.bufLen := rfl
@[simp] theorem respond_bitCnt (r : Response) : (respond r s).bitCnt = s.bitCnt := rfl
@[simp] theorem respond_phase (r : Response) : (respond r s).phase = s.phase := rfl
@[simp] theorem respond_errCode (r : Response) : (respond r s).errCode = s.errCode := rfl
@[simp] theorem respond_dataIn (r : Response) : (respond r s).dataIn = s.dataIn := rfl
@[simp] theorem respond_pending (r : Response) : (respond r s).pending = s.pending := rfl
@[simp] theorem respond_responses (r : Response) : (respond r s).responses = r :: s.responses := rfl
@[simp] theorem respond_draws (r : Response) : (respond r s).draws = s.draws := rfl

/-! ### raiseCmdError -/

@[simp] theorem raiseCmdError_v (c : ErrCode) : (raiseCmdError c s).v = s.v := rfl
@[simp] theorem raiseCmdError_buf (c : ErrCode) : (raiseCmdError c s).buf = s.buf := rfl
@[simp] theorem raiseCmdError_bufLen (c : ErrCode) : (raiseCmdError c s).bufLen = s.bufLen := rfl
@[simp] theorem raiseCmdError_bitCnt (c : ErrCode) : (raiseCmdError c s).bitCnt = s.bitCnt := rfl
@[simp] theorem raiseCmdError_phase (c : ErrCode) : (raiseCmdError c s).phase = s.phase := rfl
@[simp] theorem raiseCmdError_errCode (c : ErrCode) : (raiseCmdError c s).errCode = c := rfl
@[simp] theorem raiseCmdError_dataIn (c : ErrCode) : (raiseCmdError c s).dataIn = s.dataIn := rfl
@[simp] theorem raiseCmdError_pending (c : ErrCode) : (raiseCmdError c s).pending = s.pending := rfl
@[simp] theorem raiseCmdError_responses (c : ErrCode) : (raiseCmdError c s).responses = s.responses := rfl
@[simp] theorem raiseCmdError_draws (c : ErrCode) : (raiseCmdError c s).draws = s.draws := rfl

/-! ### writeDataIn -/

@[simp] theorem writeDataIn_v (d : Word) : (writeDataIn d s).v = s.v := rfl
@[simp] theorem writeDataIn_buf (d : Word) : (writeDataIn d s).buf = s.buf := rfl
@[simp] theorem writeDataIn_bufLen (d : Word) : (writeDataIn d s).bufLen = s.bufLen := rfl
@[simp] theorem writeDataIn_bitCnt (d : Word) : (writeDataIn d s).bitCnt = s.bitCnt := rfl
@[simp] theorem writeDataIn_phase (d : Word) : (writeDataIn d s).phase = s.phase := rfl
@[simp] theorem writeDataIn_errCode (d : Word) : (writeDataIn d s).errCode = s.errCode := rfl
@[simp] theorem writeDataIn_dataIn (d : Word) : (writeDataIn d s).dataIn = d := rfl
@[simp] theorem writeDataIn_pending (d : Word) : (writeDataIn d s).pending = s.pending := rfl
@[simp] theorem writeDataIn_responses (d : Word) : (writeDataIn d s).responses = s.responses := rfl
@[simp] theorem writeDataIn_draws (d : Word) : (writeDataIn d s).draws = s.draws := rfl

/-! ### startDigest -/

@[simp] theorem startDigest_v : (startDigest s).v = iv := rfl
@[simp] theorem startDigest_buf : (startDigest s).buf = s.buf := rfl
@[simp] theorem startDigest_bufLen : (startDigest s).bufLen = 0 := rfl
@[simp] theorem startDigest_bitCnt : (startDigest s).bitCnt = 0 := rfl
@[simp] theorem startDigest_phase : (startDigest s).phase = .fresh := rfl
@[simp] theorem startDigest_errCode : (startDigest s).errCode = .none := rfl
@[simp] theorem startDigest_dataIn : (startDigest s).dataIn = s.dataIn := rfl
@[simp] theorem startDigest_pending : (startDigest s).pending = s.pending := rfl
@[simp] theorem startDigest_responses : (startDigest s).responses = s.responses := rfl
@[simp] theorem startDigest_draws : (startDigest s).draws = s.draws := rfl

/-! ### storeByte -/

@[simp] theorem storeByte_v (b : Byte) : (storeByte b s).v = s.v := rfl
@[simp] theorem storeByte_buf (b : Byte) : (storeByte b s).buf = s.buf.set s.bufLen.toNat b s.bufLen.isLt := rfl
@[simp] theorem storeByte_bufLen (b : Byte) : (storeByte b s).bufLen = s.bufLen + 1 := rfl
@[simp] theorem storeByte_bitCnt (b : Byte) : (storeByte b s).bitCnt = s.bitCnt := rfl
@[simp] theorem storeByte_phase (b : Byte) : (storeByte b s).phase = s.phase := rfl
@[simp] theorem storeByte_errCode (b : Byte) : (storeByte b s).errCode = s.errCode := rfl
@[simp] theorem storeByte_dataIn (b : Byte) : (storeByte b s).dataIn = s.dataIn := rfl
@[simp] theorem storeByte_pending (b : Byte) : (storeByte b s).pending = s.pending := rfl
@[simp] theorem storeByte_responses (b : Byte) : (storeByte b s).responses = s.responses := rfl
@[simp] theorem storeByte_draws (b : Byte) : (storeByte b s).draws = s.draws := rfl

/-! ### compressFull -/

@[simp] theorem compressFull_v (b : Byte) : (compressFull b s).v = cf s.v (s.buf.set 63 b) := rfl
@[simp] theorem compressFull_buf (b : Byte) : (compressFull b s).buf = s.buf := rfl
@[simp] theorem compressFull_bufLen (b : Byte) : (compressFull b s).bufLen = 0 := rfl
@[simp] theorem compressFull_bitCnt (b : Byte) : (compressFull b s).bitCnt = s.bitCnt := rfl
@[simp] theorem compressFull_phase (b : Byte) : (compressFull b s).phase = s.phase := rfl
@[simp] theorem compressFull_errCode (b : Byte) : (compressFull b s).errCode = s.errCode := rfl
@[simp] theorem compressFull_dataIn (b : Byte) : (compressFull b s).dataIn = s.dataIn := rfl
@[simp] theorem compressFull_pending (b : Byte) : (compressFull b s).pending = s.pending := rfl
@[simp] theorem compressFull_responses (b : Byte) : (compressFull b s).responses = s.responses := rfl
@[simp] theorem compressFull_draws (b : Byte) : (compressFull b s).draws = s.draws := rfl

/-! ### countBytes -/

@[simp] theorem countBytes_v (n : Nat) : (countBytes n s).v = s.v := rfl
@[simp] theorem countBytes_buf (n : Nat) : (countBytes n s).buf = s.buf := rfl
@[simp] theorem countBytes_bufLen (n : Nat) : (countBytes n s).bufLen = s.bufLen := rfl
@[simp] theorem countBytes_bitCnt (n : Nat) : (countBytes n s).bitCnt = s.bitCnt + BitVec.ofNat 64 (8 * n) := rfl
@[simp] theorem countBytes_phase (n : Nat) : (countBytes n s).phase = .accum := rfl
@[simp] theorem countBytes_errCode (n : Nat) : (countBytes n s).errCode = s.errCode := rfl
@[simp] theorem countBytes_dataIn (n : Nat) : (countBytes n s).dataIn = s.dataIn := rfl
@[simp] theorem countBytes_pending (n : Nat) : (countBytes n s).pending = s.pending := rfl
@[simp] theorem countBytes_responses (n : Nat) : (countBytes n s).responses = s.responses := rfl
@[simp] theorem countBytes_draws (n : Nat) : (countBytes n s).draws = s.draws := rfl

/-! ### publish -/

@[simp] theorem publish_v : (publish s).v = finalChain s := rfl
@[simp] theorem publish_buf : (publish s).buf = s.buf := rfl
@[simp] theorem publish_bufLen : (publish s).bufLen = 0 := rfl
@[simp] theorem publish_bitCnt : (publish s).bitCnt = s.bitCnt := rfl
@[simp] theorem publish_phase : (publish s).phase = .final := rfl
@[simp] theorem publish_errCode : (publish s).errCode = s.errCode := rfl
@[simp] theorem publish_dataIn : (publish s).dataIn = s.dataIn := rfl
@[simp] theorem publish_pending : (publish s).pending = s.pending := rfl
@[simp] theorem publish_responses : (publish s).responses = s.responses := rfl
@[simp] theorem publish_draws : (publish s).draws = s.draws := rfl

/-! ### applyReset -/

@[simp] theorem applyReset_v : (applyReset s).v = iv := rfl
@[simp] theorem applyReset_buf : (applyReset s).buf = Vector.replicate 64 0 := rfl
@[simp] theorem applyReset_bufLen : (applyReset s).bufLen = 0 := rfl
@[simp] theorem applyReset_bitCnt : (applyReset s).bitCnt = 0 := rfl
@[simp] theorem applyReset_phase : (applyReset s).phase = .fresh := rfl
@[simp] theorem applyReset_errCode : (applyReset s).errCode = .none := rfl
@[simp] theorem applyReset_dataIn : (applyReset s).dataIn = 0 := rfl
@[simp] theorem applyReset_pending : (applyReset s).pending = s.pending := rfl
@[simp] theorem applyReset_responses : (applyReset s).responses = s.responses := rfl
@[simp] theorem applyReset_draws : (applyReset s).draws = s.draws := rfl

/-! ### drawFree -/

@[simp] theorem drawFree_v : (drawFree s).v = s.v := rfl
@[simp] theorem drawFree_buf : (drawFree s).buf = s.buf := rfl
@[simp] theorem drawFree_bufLen : (drawFree s).bufLen = s.bufLen := rfl
@[simp] theorem drawFree_bitCnt : (drawFree s).bitCnt = s.bitCnt := rfl
@[simp] theorem drawFree_phase : (drawFree s).phase = s.phase := rfl
@[simp] theorem drawFree_errCode : (drawFree s).errCode = s.errCode := rfl
@[simp] theorem drawFree_dataIn : (drawFree s).dataIn = s.dataIn := rfl
@[simp] theorem drawFree_pending : (drawFree s).pending = s.pending := rfl
@[simp] theorem drawFree_responses : (drawFree s).responses = s.responses := rfl
@[simp] theorem drawFree_draws : (drawFree s).draws = s.draws + 1 := rfl

end Sys2Proof.Machine
end

