-- ==== Sys2Proof/Laws/Ops.lean ====
section
/-! SUPPORT. One specification lemma for each shared operation, for later proofs to cite instead of unfolding it. -/

namespace Sys2Proof.Machine

/-! ### The checks -/

theorem accessCheck_ok {off : Offset} {size : AccessSize} (hs : size = .word) (ho : off.toNat % 4 = 0) :
    accessCheck off size = .ok () := by
  simp [accessCheck, hs, ho]

theorem accessCheck_error {off : Offset} {size : AccessSize} (h : size ≠ .word ∨ off.toNat % 4 ≠ 0) :
    accessCheck off size = .error (.busError off) := by
  unfold accessCheck
  exact if_pos h

/-- The check accepts exactly the aligned 32-bit accesses. -/
theorem accessCheck_cases (off : Offset) (size : AccessSize) :
    (size = .word ∧ off.toNat % 4 = 0 ∧ accessCheck off size = .ok ()) ∨
    ((size ≠ .word ∨ off.toNat % 4 ≠ 0) ∧ accessCheck off size = .error (.busError off)) := by
  by_cases h : size ≠ .word ∨ off.toNat % 4 ≠ 0
  · exact .inr ⟨h, accessCheck_error h⟩
  · rw [not_or, not_not, not_not] at h
    exact .inl ⟨h.1, h.2, accessCheck_ok h.1 h.2⟩

theorem unlessFinal_of_final {s : State} (effect : State → State) (h : s.phase = .final) :
    unlessFinal effect s = .next (raiseCmdError .invalidState s) := if_pos h

theorem unlessFinal_of_ne {s : State} (effect : State → State) (h : s.phase ≠ .final) :
    unlessFinal effect s = .next (effect s) := if_neg h

/-! ### The buffer -/

@[simp] theorem bufTail_length (s : State) : (bufTail s).length = s.bufLen.toNat := by
  have := s.bufLen.isLt
  simp [bufTail]
  omega

theorem bufTail_of_bufLen_zero {s : State} (h : s.bufLen = 0) : bufTail s = [] := by
  simp [bufTail, h]

/-- A byte stored at the end of the buffer is appended to its tail. -/
theorem bufTail_storeByte {s : State} (b : Byte) (h : s.bufLen ≠ 63) : bufTail (storeByte b s) = bufTail s ++ [b] := by
  have hlt := s.bufLen.isLt
  have hne : s.bufLen.toNat ≠ 63 := fun e => h (BitVec.eq_of_toNat_eq e)
  have hinc : (s.bufLen + 1).toNat = s.bufLen.toNat + 1 := by
    rw [BitVec.toNat_add]; simp; omega
  apply List.ext_getElem
  · rw [bufTail_length, storeByte_bufLen, hinc]; simp
  · intro i h1 h2
    have hi : i < s.bufLen.toNat + 1 := by rwa [bufTail_length, storeByte_bufLen, hinc] at h1
    simp only [bufTail, storeByte_buf, storeByte_bufLen, List.getElem_take, Vector.getElem_toList, Vector.getElem_set]
    by_cases hib : i = s.bufLen.toNat
    · simp [hib, List.getElem_append_right]
    · rw [if_neg (Ne.symm hib), List.getElem_append_left (by simp; omega)]
      simp

/-- The block compressed when the buffer fills is its 63 bytes and the new one. -/
theorem fullBlock_eq {s : State} (b : Byte) (h : s.bufLen = 63) : s.buf.set 63 b = blockAt (bufTail s ++ [b]) 0 := by
  have hlen : (bufTail s).length = 63 := by simp [h]
  apply Vector.ext
  intro i hi
  rw [blockAt_get _ _ _ hi, Vector.getElem_set, Nat.mul_zero, Nat.zero_add, List.getD_eq_getElem?_getD]
  by_cases h63 : 63 = i
  · subst h63
    rw [if_pos rfl, List.getElem?_append_right (by omega)]
    simp [hlen]
  · rw [if_neg h63, List.getElem?_append_left (by omega)]
    simp [bufTail, h, show i < 63 by omega]

/-! ### Absorbing -/

theorem absorbByte_of_ne {s : State} (b : Byte) (h : s.bufLen ≠ 63) : absorbByte s b = storeByte b s := if_neg h

theorem absorbByte_of_eq {s : State} (b : Byte) (h : s.bufLen = 63) : absorbByte s b = compressFull b s := if_pos h

@[simp] theorem absorbByte_bitCnt (s : State) (b : Byte) : (absorbByte s b).bitCnt = s.bitCnt := by
  unfold absorbByte; split <;> rfl
@[simp] theorem absorbByte_phase (s : State) (b : Byte) : (absorbByte s b).phase = s.phase := by
  unfold absorbByte; split <;> rfl
@[simp] theorem absorbByte_errCode (s : State) (b : Byte) : (absorbByte s b).errCode = s.errCode := by
  unfold absorbByte; split <;> rfl
@[simp] theorem absorbByte_dataIn (s : State) (b : Byte) : (absorbByte s b).dataIn = s.dataIn := by
  unfold absorbByte; split <;> rfl
@[simp] theorem absorbByte_pending (s : State) (b : Byte) : (absorbByte s b).pending = s.pending := by
  unfold absorbByte; split <;> rfl
@[simp] theorem absorbByte_responses (s : State) (b : Byte) : (absorbByte s b).responses = s.responses := by
  unfold absorbByte; split <;> rfl
@[simp] theorem absorbByte_draws (s : State) (b : Byte) : (absorbByte s b).draws = s.draws := by
  unfold absorbByte; split <;> rfl

@[simp] theorem absorbBytes_nil (s : State) : absorbBytes [] s = s := rfl

@[simp] theorem absorbBytes_cons (b : Byte) (bs : List Byte) (s : State) :
    absorbBytes (b :: bs) s = absorbBytes bs (absorbByte s b) := rfl

@[simp] theorem absorbBytes_bitCnt (bs : List Byte) (s : State) : (absorbBytes bs s).bitCnt = s.bitCnt := by
  induction bs generalizing s <;> simp [*]
@[simp] theorem absorbBytes_phase (bs : List Byte) (s : State) : (absorbBytes bs s).phase = s.phase := by
  induction bs generalizing s <;> simp [*]
@[simp] theorem absorbBytes_errCode (bs : List Byte) (s : State) : (absorbBytes bs s).errCode = s.errCode := by
  induction bs generalizing s <;> simp [*]
@[simp] theorem absorbBytes_dataIn (bs : List Byte) (s : State) : (absorbBytes bs s).dataIn = s.dataIn := by
  induction bs generalizing s <;> simp [*]
@[simp] theorem absorbBytes_pending (bs : List Byte) (s : State) : (absorbBytes bs s).pending = s.pending := by
  induction bs generalizing s <;> simp [*]
@[simp] theorem absorbBytes_responses (bs : List Byte) (s : State) : (absorbBytes bs s).responses = s.responses := by
  induction bs generalizing s <;> simp [*]
@[simp] theorem absorbBytes_draws (bs : List Byte) (s : State) : (absorbBytes bs s).draws = s.draws := by
  induction bs generalizing s <;> simp [*]

/-- V and the buffer stand for the byte sequence `bs` from the chaining state `v`: V is CF folded over its full blocks and the
buffer's tail is the rest. -/
def Accumulates (v : ChainState) (bs : List Byte) (s : State) : Prop :=
  s.v = compressBlocks v bs (bs.length / 64) ∧ bufTail s = bs.drop (64 * (bs.length / 64))

theorem Accumulates.bufLen {v : ChainState} {bs : List Byte} {s : State} (h : Accumulates v bs s) :
    s.bufLen.toNat = bs.length % 64 := by
  rw [← bufTail_length, h.2, List.length_drop]
  omega

/-- Every state accumulates its own buffer tail. -/
theorem accumulates_self (s : State) : Accumulates s.v (bufTail s) s := by
  have := s.bufLen.isLt
  simp [Accumulates, Nat.div_eq_of_lt this]

/-- Absorbing one byte appends it to the sequence accumulated. -/
theorem Accumulates.absorbByte {v : ChainState} {bs : List Byte} {s : State} (h : Accumulates v bs s) (b : Byte) :
    Accumulates v (bs ++ [b]) (absorbByte s b) := by
  have hlen := h.bufLen
  by_cases hfull : s.bufLen = 63
  · have h63 : bs.length % 64 = 63 := by rw [← hlen, hfull]; rfl
    have hq : (bs ++ [b]).length / 64 = bs.length / 64 + 1 := by simp; omega
    have hblk : blockAt (bufTail s ++ [b]) 0 = blockAt (bs ++ [b]) (bs.length / 64) := by
      have hdrop : bufTail s ++ [b] = (bs ++ [b]).drop (64 * (bs.length / 64)) := by
        rw [h.2, List.drop_append_of_le_length (by omega)]
      rw [hdrop, blockAt_drop, Nat.add_zero]
    rw [absorbByte_of_eq b hfull]
    constructor
    · rw [hq, compressBlocks_succ, compressBlocks_append _ _ (by omega), ← h.1, ← hblk, compressFull_v,
        fullBlock_eq b hfull]
    · rw [bufTail_of_bufLen_zero (by simp), hq, List.drop_of_length_le (by simp; omega)]
  · have h63 : bs.length % 64 ≠ 63 := fun e => hfull (BitVec.eq_of_toNat_eq (hlen.trans e))
    have hq : (bs ++ [b]).length / 64 = bs.length / 64 := by simp; omega
    rw [absorbByte_of_ne b hfull]
    constructor
    · rw [hq, compressBlocks_append _ _ (by omega), storeByte_v, h.1]
    · rw [hq, bufTail_storeByte b hfull, h.2, List.drop_append_of_le_length (by omega)]

/-- Absorbing bytes appends them to the sequence accumulated. -/
theorem Accumulates.absorbBytes {v : ChainState} {bs : List Byte} {s : State} (h : Accumulates v bs s) (cs : List Byte) :
    Accumulates v (bs ++ cs) (absorbBytes cs s) := by
  induction cs generalizing bs s with
  | nil => simpa using h
  | cons c cs ih => simpa using ih (h.absorbByte c)

/-- What the message bytes of an UPDATE number. -/
@[simp] theorem messageBytes_length (nb : BitVec 3) (d : Word) : (messageBytes nb d).length = nb.toNat := by
  simp [messageBytes, byteCount]

/-! ### Responses -/

@[simp] theorem thenRespond_next (r : Response) (s : State) : thenRespond r (.next s) = .next (respond r s) := rfl

end Sys2Proof.Machine
end

