-- ==== Sys2Proof/Laws/WordOps.lean ====
section
/-! SUPPORT. The word operations of spec 40_wordops.md in terms of Lean's own, and the byte order of 00_scope.md R9 as two
inverse maps. -/

namespace Sys2Proof.Machine

/-- ROTL, written with shifts, is the bit vectors' own rotation. -/
theorem rotl_eq_rotateLeft (x : Word) (n : Nat) : rotl x n = x.rotateLeft n := by
  apply BitVec.eq_of_getLsbD_eq
  intro i hi
  rw [BitVec.getLsbD_rotateLeft]
  unfold rotl
  simp only
  have : n % 32 < 32 := Nat.mod_lt _ (by decide)
  split
  · next h => simp [h, hi]
  · next h =>
    simp only [BitVec.getLsbD_or, BitVec.getLsbD_shiftLeft, BitVec.getLsbD_ushiftRight]
    by_cases h1 : i < n % 32
    · simp [h1, hi]
    · have hge : ∀ j, 32 ≤ j → x.getLsbD j = false := fun j h => BitVec.getLsbD_of_ge _ _ h
      simp only [h1, hi, decide_true, decide_false, Bool.not_false, Bool.true_and, cond_false, hge (32 - n % 32 + i) (by omega),
        Bool.or_false]

/-- Four bytes appended, as arithmetic. -/
theorem be32_toNat (a b c d : Byte) :
    (be32 a b c d).toNat = a.toNat * 2 ^ 24 + b.toNat * 2 ^ 16 + c.toNat * 2 ^ 8 + d.toNat := by
  have h1 := BitVec.toNat_append (a ++ b ++ c) d
  have h2 := BitVec.toNat_append (a ++ b) c
  have h3 := BitVec.toNat_append a b
  have h : (be32 a b c d).toNat = _ := h1
  rw [h, h2, h3, ← Nat.shiftLeft_add_eq_or_of_lt (BitVec.isLt _), ← Nat.shiftLeft_add_eq_or_of_lt (BitVec.isLt _),
    ← Nat.shiftLeft_add_eq_or_of_lt (BitVec.isLt _)]
  simp only [Nat.shiftLeft_eq]
  omega

theorem byteOfWord_toNat (w : Word) (i : Nat) : (byteOfWord w i).toNat = w.toNat / 2 ^ (24 - 8 * i) % 256 := by
  simp [byteOfWord, BitVec.extractLsb'_toNat, Nat.shiftRight_eq_div_pow]

/-- A word is its four bytes, most significant first. -/
theorem be32_byteOfWord (w : Word) :
    be32 (byteOfWord w 0) (byteOfWord w 1) (byteOfWord w 2) (byteOfWord w 3) = w := by
  apply BitVec.eq_of_toNat_eq
  have := w.isLt
  simp only [be32_toNat, byteOfWord_toNat]
  omega

/-- The bytes of a word made of four bytes are those. -/
theorem byteOfWord_be32 (a b c d : Byte) :
    byteOfWord (be32 a b c d) 0 = a ∧ byteOfWord (be32 a b c d) 1 = b ∧
    byteOfWord (be32 a b c d) 2 = c ∧ byteOfWord (be32 a b c d) 3 = d := by
  have := a.isLt
  have := b.isLt
  have := c.isLt
  have := d.isLt
  refine ⟨?_, ?_, ?_, ?_⟩ <;> apply BitVec.eq_of_toNat_eq <;> simp only [byteOfWord_toNat, be32_toNat] <;> omega

@[simp] theorem be64bytes_length (v : BitVec 64) : (be64bytes v).length = 8 := by simp [be64bytes]

/-- A 64-bit value is its two halves. -/
theorem halves_append (b : BitVec 64) : (b.extractLsb' 32 32 ++ b.extractLsb' 0 32 : BitVec 64) = b := by
  apply BitVec.eq_of_toNat_eq
  refine (BitVec.toNat_append (b.extractLsb' 32 32) (b.extractLsb' 0 32)).trans ?_
  rw [← Nat.shiftLeft_add_eq_or_of_lt (BitVec.isLt _)]
  simp [BitVec.extractLsb'_toNat, Nat.shiftRight_eq_div_pow, Nat.shiftLeft_eq]
  omega

end Sys2Proof.Machine
end

