-- ==== Sys2Proof/Laws/Padding.lean ====
section
/-! SUPPORT. The zero bytes of the padding, as arithmetic (spec 41_padding.md R77, R80). -/

namespace Sys2Proof.Machine

/-- The zero bytes end at position 56 of a block, and there are fewer than 64. -/
theorem zeroCount_spec (n : Nat) : (n + 1 + zeroCount n) % 64 = 56 ∧ zeroCount n < 64 := by
  unfold zeroCount; omega

/-- Whole blocks before do not matter. -/
theorem zeroCount_mod (n : Nat) : zeroCount (n % 64) = zeroCount n := by
  unfold zeroCount; omega

theorem zeroCount_of_le {n : Nat} (h : n ≤ 55) : zeroCount n = 55 - n := by
  unfold zeroCount; omega

theorem zeroCount_of_lt {n : Nat} (h : 55 < n) (h64 : n < 64) : zeroCount n = (63 - n) + 56 := by
  unfold zeroCount; omega

@[simp] theorem padSuffix_length (n : Nat) (len : BitVec 64) : (padSuffix n len).length = 1 + zeroCount n + 8 := by
  simp only [padSuffix, List.length_append, List.length_replicate, be64bytes_length, List.length_singleton]

theorem padTail_length (tail : List Byte) (len : BitVec 64) :
    (padTail tail len).length = tail.length + (1 + zeroCount tail.length + 8) := by
  rw [padTail, List.length_append, padSuffix_length]

end Sys2Proof.Machine
end

