-- ==== Sys2Proof/Laws/Commands.lean ====
section
/-! SUPPORT. What each command's execution is, case by case, and what UPDATE and FINALIZE make of V and the buffer (spec
44_digest_commands.md R104, R105). -/

namespace Sys2Proof.Machine

seal cf

/-! ### Which effect a command has -/

theorem exec_update_of_ne {nb : BitVec 3} (h : nb.toNat ≤ 4) {s : State} (hf : s.phase ≠ .final) :
    exec (.update nb) s = .next (updateEffect nb s) :=
  (if_pos h).trans (unlessFinal_of_ne _ hf)

theorem exec_update_of_final {nb : BitVec 3} (h : nb.toNat ≤ 4) {s : State} (hf : s.phase = .final) :
    exec (.update nb) s = .next (raiseCmdError .invalidState s) :=
  (if_pos h).trans (unlessFinal_of_final _ hf)

/-- A byte count that no legal word has. -/
theorem exec_update_of_lt {nb : BitVec 3} (h : ¬ nb.toNat ≤ 4) (s : State) :
    exec (.update nb) s = .next (raiseCmdError .illegalCmd s) := if_neg h

theorem exec_finalize_of_ne {s : State} (hf : s.phase ≠ .final) : exec .finalize s = .next (publish s) :=
  unlessFinal_of_ne _ hf

theorem exec_finalize_of_final {s : State} (hf : s.phase = .final) :
    exec .finalize s = .next (raiseCmdError .invalidState s) := unlessFinal_of_final _ hf

/-! ### UPDATE -/

/-- An accepted UPDATE appends its message bytes to what V and the buffer stand for. -/
theorem Accumulates.updateEffect {v : ChainState} {bs : List Byte} {s : State} (h : Accumulates v bs s) (nb : BitVec 3) :
    Accumulates v (bs ++ messageBytes nb s.dataIn) (updateEffect nb s) := h.absorbBytes _

/-- The buffer's new length. -/
theorem updateEffect_bufLen (nb : BitVec 3) (s : State) :
    (updateEffect nb s).bufLen.toNat = (s.bufLen.toNat + nb.toNat) % 64 := by
  have h := ((accumulates_self s).updateEffect nb).bufLen
  simpa using h

/-- V is kept, or one block is compressed. -/
theorem updateEffect_v (nb : BitVec 3) (s : State) (h4 : nb.toNat ≤ 4) :
    (updateEffect nb s).v = s.v ∨ (64 ≤ s.bufLen.toNat + nb.toNat ∧ ∃ b, (updateEffect nb s).v = cf s.v b) := by
  have h1 := ((accumulates_self s).updateEffect nb).1
  have hlt := s.bufLen.isLt
  simp only [List.length_append, bufTail_length, messageBytes_length] at h1
  by_cases hl : s.bufLen.toNat + nb.toNat < 64
  · rw [Nat.div_eq_of_lt hl] at h1
    exact .inl h1
  · rw [show (s.bufLen.toNat + nb.toNat) / 64 = 1 by omega, compressBlocks_one] at h1
    exact .inr ⟨by omega, _, h1⟩

/-! ### FINALIZE -/

/-- One compression if the tail leaves room for the length, two otherwise. -/
theorem finalChain_cases (s : State) :
    (s.bufLen.toNat ≤ 55 ∧ finalChain s = cf s.v (blockAt (padTail (bufTail s) s.bitCnt) 0)) ∨
    (55 < s.bufLen.toNat ∧ finalChain s =
      cf (cf s.v (blockAt (padTail (bufTail s) s.bitCnt) 0)) (blockAt (padTail (bufTail s) s.bitCnt) 1)) := by
  have hlt := s.bufLen.isLt
  have hl := padTail_length (bufTail s) s.bitCnt
  rw [bufTail_length] at hl
  unfold finalChain
  simp only
  by_cases h : s.bufLen.toNat ≤ 55
  · rw [zeroCount_of_le h] at hl
    rw [if_neg (by omega)]
    exact .inl ⟨h, rfl⟩
  · rw [zeroCount_of_lt (by omega) (by omega)] at hl
    rw [if_pos (by omega)]
    exact .inr ⟨by omega, rfl⟩

end Sys2Proof.Machine
end

