-- ==== Sys2Proof/Laws/Decode.lean ====
section
/-! SUPPORT. A command word and its three fields determine each other (spec 30_encoding.md R55), as arithmetic. -/

namespace Sys2Proof

theorem fieldOp_toNat (w : Word) : (fieldOp w).toNat = w.toNat % 16 := by
  simp [fieldOp, BitVec.extractLsb'_toNat]

theorem fieldNb_toNat (w : Word) : (fieldNb w).toNat = w.toNat / 16 % 8 := by
  simp [fieldNb, BitVec.extractLsb'_toNat, Nat.shiftRight_eq_div_pow]

theorem fieldRsv_toNat (w : Word) : (fieldRsv w).toNat = w.toNat / 128 := by
  have := w.isLt
  simp [fieldRsv, BitVec.extractLsb'_toNat, Nat.shiftRight_eq_div_pow]
  omega

theorem commandWord_toNat (nb : BitVec 3) (op : BitVec 4) : (commandWord nb op).toNat = 16 * nb.toNat + op.toNat := by
  have hop := op.isLt
  have happ : (commandWord nb op).toNat = (0#25 ++ nb).toNat <<< 4 ||| op.toNat := BitVec.toNat_append (0#25 ++ nb) op
  have hnb : (0#25 ++ nb).toNat = nb.toNat := (BitVec.toNat_append 0#25 nb).trans (by simp)
  rw [happ, hnb, ← Nat.shiftLeft_add_eq_or_of_lt hop, Nat.shiftLeft_eq]
  omega

/-- Two words with the same three fields are equal. -/
theorem word_ext_fields {w w' : Word} (hr : fieldRsv w = fieldRsv w') (hn : fieldNb w = fieldNb w')
    (ho : fieldOp w = fieldOp w') : w = w' := by
  apply BitVec.eq_of_toNat_eq
  have h1 := congrArg BitVec.toNat hr
  have h2 := congrArg BitVec.toNat hn
  have h3 := congrArg BitVec.toNat ho
  simp only [fieldRsv_toNat, fieldNb_toNat, fieldOp_toNat] at h1 h2 h3
  omega

@[simp] theorem fieldOp_commandWord (nb : BitVec 3) (op : BitVec 4) : fieldOp (commandWord nb op) = op := by
  apply BitVec.eq_of_toNat_eq
  have := op.isLt
  rw [fieldOp_toNat, commandWord_toNat]; omega

@[simp] theorem fieldNb_commandWord (nb : BitVec 3) (op : BitVec 4) : fieldNb (commandWord nb op) = nb := by
  apply BitVec.eq_of_toNat_eq
  have := op.isLt
  have := nb.isLt
  rw [fieldNb_toNat, commandWord_toNat]; omega

@[simp] theorem fieldRsv_commandWord (nb : BitVec 3) (op : BitVec 4) : fieldRsv (commandWord nb op) = 0 := by
  apply BitVec.eq_of_toNat_eq
  have := op.isLt
  have := nb.isLt
  rw [fieldRsv_toNat, commandWord_toNat]; simp; omega

/-- A word whose RSV field is 0 is the command word of its other fields. -/
theorem eq_commandWord_of_fieldRsv {w : Word} (h : fieldRsv w = 0) : w = commandWord (fieldNb w) (fieldOp w) :=
  word_ext_fields (by simp [h]) (by simp) (by simp)

/-- What decoding a word by its fields answers, one line of the decode function of R58 each. -/
theorem decode_cases (w : Word) :
    (fieldRsv w ≠ 0 ∧ decode w = .error .reservedBits) ∨
    (fieldRsv w = 0 ∧ 4 ≤ (fieldOp w).toNat ∧ decode w = .error .reservedOp) ∨
    (fieldRsv w = 0 ∧ (fieldOp w).toNat < 4 ∧ (fieldOp w).toNat ≠ 2 ∧ fieldNb w ≠ 0 ∧
      decode w = .error .byteCountNotZero) ∨
    (fieldRsv w = 0 ∧ fieldOp w = 2 ∧ 4 < (fieldNb w).toNat ∧ decode w = .error .byteCountTooLarge) ∨
    (fieldRsv w = 0 ∧ fieldOp w = 0 ∧ fieldNb w = 0 ∧ decode w = .ok .nop) ∨
    (fieldRsv w = 0 ∧ fieldOp w = 1 ∧ fieldNb w = 0 ∧ decode w = .ok .init) ∨
    (fieldRsv w = 0 ∧ fieldOp w = 2 ∧ (fieldNb w).toNat ≤ 4 ∧ decode w = .ok (.update (fieldNb w))) ∨
    (fieldRsv w = 0 ∧ fieldOp w = 3 ∧ fieldNb w = 0 ∧ decode w = .ok .finalize) := by
  by_cases hr : fieldRsv w = 0
  · have hop (k : BitVec 4) (h : (fieldOp w).toNat = k.toNat) : fieldOp w = k := BitVec.eq_of_toNat_eq h
    have hd : decode w = match (fieldOp w).toNat with
        | 0 => decodePlain (fieldNb w) .nop
        | 1 => decodePlain (fieldNb w) .init
        | 2 => decodeUpdate (fieldNb w)
        | 3 => decodePlain (fieldNb w) .finalize
        | _ => .error .reservedOp := if_neg (not_not_intro hr)
    rw [hd]
    have plain (i : Instr) : (fieldNb w = 0 ∧ decodePlain (fieldNb w) i = .ok i) ∨
        (fieldNb w ≠ 0 ∧ decodePlain (fieldNb w) i = .error .byteCountNotZero) := by
      by_cases hn : fieldNb w = 0
      · exact .inl ⟨hn, if_pos hn⟩
      · exact .inr ⟨hn, if_neg hn⟩
    split
    · next h =>
      rcases plain .nop with ⟨hn, e⟩ | ⟨hn, e⟩
      · exact .inr (.inr (.inr (.inr (.inl ⟨hr, hop 0 h, hn, e⟩))))
      · exact .inr (.inr (.inl ⟨hr, by omega, by omega, hn, e⟩))
    · next h =>
      rcases plain .init with ⟨hn, e⟩ | ⟨hn, e⟩
      · exact .inr (.inr (.inr (.inr (.inr (.inl ⟨hr, hop 1 h, hn, e⟩)))))
      · exact .inr (.inr (.inl ⟨hr, by omega, by omega, hn, e⟩))
    · next h =>
      by_cases hn : (fieldNb w).toNat ≤ 4
      · exact .inr (.inr (.inr (.inr (.inr (.inr (.inl ⟨hr, hop 2 h, hn, if_pos hn⟩))))))
      · exact .inr (.inr (.inr (.inl ⟨hr, hop 2 h, by omega, if_neg hn⟩)))
    · next h =>
      rcases plain .finalize with ⟨hn, e⟩ | ⟨hn, e⟩
      · exact .inr (.inr (.inr (.inr (.inr (.inr (.inr ⟨hr, hop 3 h, hn, e⟩))))))
      · exact .inr (.inr (.inl ⟨hr, by omega, by omega, hn, e⟩))
    · next h0 h1 h2 h3 =>
      exact .inr (.inl ⟨hr, by
        rcases hk : (fieldOp w).toNat with _ | _ | _ | _ | k
        · exact absurd hk h0
        · exact absurd hk h1
        · exact absurd hk h2
        · exact absurd hk h3
        · omega, rfl⟩)
  · exact .inl ⟨hr, if_pos hr⟩

end Sys2Proof
end

