-- ==== Sys2Proof/Laws/PerInstr.lean ====
section
/-! SUPPORT. What holds of the encoding of every command, one lemma per constructor (spec 30_encoding.md R55, R56). -/

namespace Sys2Proof.Laws.EncodeFields

/-- The word of a command has RSV 0, its OP and its byte count in NB, and is 16·NB + OP as a number. -/
def Statement (i : Instr) : Prop :=
  fieldRsv (encode i) = 0 ∧ fieldOp (encode i) = opcode i ∧ fieldNb (encode i) = byteCountField i ∧
    (encode i).toNat = 16 * (byteCountField i).toNat + (opcode i).toNat

/-- Every command word is built from its fields. -/
theorem of_fields (i : Instr) : Statement i :=
  ⟨fieldRsv_commandWord _ _, fieldOp_commandWord _ _, fieldNb_commandWord _ _, commandWord_toNat _ _⟩

theorem nop : Statement .nop := of_fields _
theorem init : Statement .init := of_fields _
theorem update (nb : BitVec 3) : Statement (.update nb) := of_fields _
theorem finalize : Statement .finalize := of_fields _

end Sys2Proof.Laws.EncodeFields
end

