-- ==== Sys2Proof/Laws/Port.lean ====
section
/-! SUPPORT. What a step can do, said once: the inversion lemmas of `execute` and `step`. -/

namespace Sys2Proof.Machine

/-! ### The window -/

/-- CMD stands at offset 0 alone. -/
theorem regAt_cmd : ∀ {off : Offset}, off.toNat % 4 = 0 → regAt off = .cmd → off = 0 := by decide

/-- DATA_IN stands at offset 8 alone. -/
theorem regAt_dataIn : ∀ {off : Offset}, off.toNat % 4 = 0 → regAt off = .dataIn → off = 8 := by decide

/-! ### Executing a command word -/

theorem execute_error {w : Word} {e : IllegalWord} (h : decode w = .error e) (s : State) :
    execute w s = .next (raiseCmdError .illegalCmd s) := by
  unfold execute; rw [h]

theorem execute_ok {w : Word} {i : Instr} (h : decode w = .ok i) (s : State) : execute w s = exec i s := by
  unfold execute; rw [h]

/-- What executing a word can do: reject it as illegal, reject it in FINAL, or run one of the four commands. -/
theorem execute_cases (w : Word) (s : State) :
    ((∃ e, decode w = .error e) ∧ execute w s = .next (raiseCmdError .illegalCmd s)) ∨
    (s.phase = .final ∧ (decode w = .ok .finalize ∨ ∃ nb, nb.toNat ≤ 4 ∧ decode w = .ok (.update nb)) ∧
      execute w s = .next (raiseCmdError .invalidState s)) ∨
    (decode w = .ok .nop ∧ execute w s = .next s) ∨
    (decode w = .ok .init ∧ execute w s = .next (startDigest s)) ∨
    (s.phase ≠ .final ∧ (∃ nb, nb.toNat ≤ 4 ∧ decode w = .ok (.update nb) ∧
      execute w s = .next (updateEffect nb s))) ∨
    (s.phase ≠ .final ∧ decode w = .ok .finalize ∧ execute w s = .next (publish s)) := by
  rcases decode_cases w with ⟨_, e⟩ | ⟨_, _, e⟩ | ⟨_, _, _, _, e⟩ | ⟨_, _, _, e⟩ | ⟨_, _, _, e⟩ | ⟨_, _, _, e⟩ |
    ⟨_, _, hn, e⟩ | ⟨_, _, _, e⟩
  · exact .inl ⟨⟨_, e⟩, execute_error e s⟩
  · exact .inl ⟨⟨_, e⟩, execute_error e s⟩
  · exact .inl ⟨⟨_, e⟩, execute_error e s⟩
  · exact .inl ⟨⟨_, e⟩, execute_error e s⟩
  · exact .inr (.inr (.inl ⟨e, execute_ok e s⟩))
  · exact .inr (.inr (.inr (.inl ⟨e, execute_ok e s⟩)))
  · have hx : execute w s = unlessFinal (updateEffect (fieldNb w)) s := (execute_ok e s).trans (if_pos hn)
    by_cases hf : s.phase = .final
    · exact .inr (.inl ⟨hf, .inr ⟨_, hn, e⟩, hx.trans (unlessFinal_of_final _ hf)⟩)
    · exact .inr (.inr (.inr (.inr (.inl ⟨hf, _, hn, e, hx.trans (unlessFinal_of_ne _ hf)⟩))))
  · have hx : execute w s = unlessFinal publish s := execute_ok e s
    by_cases hf : s.phase = .final
    · exact .inr (.inl ⟨hf, .inl e, hx.trans (unlessFinal_of_final _ hf)⟩)
    · exact .inr (.inr (.inr (.inr (.inr ⟨hf, e, hx.trans (unlessFinal_of_ne _ hf)⟩))))

/-- Executing a word always answers a next state, and leaves the port's bookkeeping and DATA_IN alone. -/
theorem execute_next (w : Word) (s : State) :
    ∃ t, execute w s = .next t ∧ t.pending = s.pending ∧ t.responses = s.responses ∧ t.draws = s.draws ∧
      t.dataIn = s.dataIn := by
  rcases execute_cases w s with ⟨_, e⟩ | ⟨_, _, e⟩ | ⟨_, e⟩ | ⟨_, e⟩ | ⟨_, _, _, _, e⟩ | ⟨_, _, e⟩ <;>
    exact ⟨_, e, by simp [updateEffect]⟩

/-! ### Serving one event -/

theorem serve_read {s : State} {off : Offset} {size : AccessSize} {rest : List PortEvent}
    (h : s.pending = .read off size :: rest) : step s = serveRead off size (withPending rest s) := by
  unfold step serve; rw [h]

theorem serve_write {s : State} {off : Offset} {size : AccessSize} {d : Word} {rest : List PortEvent}
    (h : s.pending = .write off size d :: rest) : step s = serveWrite off size d (withPending rest s) := by
  unfold step serve; rw [h]

/-- A 32-bit write to CMD executes its word, then answers OK. -/
theorem serve_command {s : State} {w : Word} {rest : List PortEvent}
    (h : s.pending = .write 0x00 .word w :: rest) : step s = thenRespond .ok (execute w (withPending rest s)) :=
  serve_write h

/-- A defined write to a register other than CMD. -/
theorem serveAlignedWrite_of_ne_cmd {r : PortReg} (h : r ≠ .cmd) (d : Word) (s : State) :
    serveAlignedWrite r d s = .next (respond .ok (writeReg r d s)) := by
  cases r <;> first | exact absurd rfl h | rfl

/-- A write to a register other than CMD and DATA_IN changes nothing. -/
theorem writeReg_ignored {r : PortReg} (h : r ≠ .dataIn) (d : Word) (s : State) : writeReg r d s = s := by
  cases r <;> first | exact absurd rfl h | rfl

/-- The next event is neither a command nor a write of DATA_IN nor a reset. -/
def QuietNext (s : State) : Prop :=
  resetsNext s = false ∧ nextCommandWord s = none ∧ ∀ d rest, s.pending ≠ .write 0x08 .word d :: rest

/-- Everything a step can do. -/
theorem step_cases {s t : State} (h : step s = .next t) :
    (s.pending = [] ∧ t = s) ∨
    (QuietNext s ∧ ∃ e r rest, s.pending = e :: rest ∧ t = respond r (withPending rest s)) ∨
    (∃ d rest, s.pending = .write 0x08 .word d :: rest ∧ t = respond .ok (writeDataIn d (withPending rest s))) ∨
    (∃ w rest u, s.pending = .write 0x00 .word w :: rest ∧ execute w (withPending rest s) = .next u ∧
      t = respond .ok u) ∨
    (∃ rest, s.pending = .reset :: rest ∧ t = applyReset (withPending rest s)) ∨
    (∃ w rest, s.pending = .resetDuringCommand w :: rest ∧ t = abandonCommand (withPending rest s)) := by
  rcases hp : s.pending with _ | ⟨e, rest⟩
  · refine .inl ⟨rfl, ?_⟩
    unfold step serve at h
    rw [hp] at h
    injection h with h
    exact h.symm
  · cases e with
    | read off size =>
      refine .inr (.inl ⟨⟨by simp [resetsNext, hp], by simp [nextCommandWord, hp], by simp [hp]⟩, .read off size, ?_⟩)
      rw [serve_read hp] at h
      rcases accessCheck_cases off size with ⟨_, _, hc⟩ | ⟨_, hc⟩ <;> simp only [serveRead, hc] at h <;>
        injection h with h <;> exact ⟨_, _, rfl, h.symm⟩
    | write off size d =>
      rw [serve_write hp] at h
      rcases accessCheck_cases off size with ⟨hs, ho, hc⟩ | ⟨hbad, hc⟩
      · subst hs
        simp only [serveWrite, hc] at h
        by_cases hcmd : regAt off = .cmd
        · obtain rfl := regAt_cmd ho hcmd
          rw [hcmd] at h
          obtain ⟨u, hu, -⟩ := execute_next d (withPending rest s)
          refine .inr (.inr (.inr (.inl ⟨d, rest, u, rfl, hu, ?_⟩)))
          simp only [serveAlignedWrite, hu, thenRespond_next] at h
          injection h with h
          exact h.symm
        · rw [serveAlignedWrite_of_ne_cmd hcmd] at h
          injection h with h
          by_cases hdata : regAt off = .dataIn
          · obtain rfl := regAt_dataIn ho hdata
            rw [hdata] at h
            exact .inr (.inr (.inl ⟨d, rest, rfl, h.symm⟩))
          · rw [writeReg_ignored hdata] at h
            have hne0 : off ≠ 0 := fun e => hcmd (by rw [e]; rfl)
            have hne8 : off ≠ 8 := fun e => hdata (by rw [e]; rfl)
            exact .inr (.inl ⟨⟨by simp [resetsNext, hp], by simp [nextCommandWord, hp]; exact hne0,
              by simp [hp]; exact hne8⟩, _, _, _, rfl, h.symm⟩)
      · simp only [serveWrite, hc] at h
        injection h with h
        have hne (k : Offset) (hk : k.toNat % 4 = 0) : ¬ (size = .word ∧ off = k) := by
          rintro ⟨rfl, rfl⟩
          exact hbad.elim (fun n => n rfl) (fun n => n hk)
        exact .inr (.inl ⟨⟨by simp [resetsNext, hp], by simpa [nextCommandWord, hp] using fun a => fun b => hne 0 rfl ⟨a, b⟩,
          by simp only [hp]; intro _ _ e; injection e with e _; injection e with e1 e2 _; exact hne 8 rfl ⟨e2, e1⟩⟩,
          _, _, _, rfl, h.symm⟩)
    | reset =>
      unfold step serve at h
      rw [hp] at h
      injection h with h
      exact .inr (.inr (.inr (.inr (.inl ⟨rest, rfl, h.symm⟩))))
    | resetDuringCommand w =>
      unfold step serve at h
      rw [hp] at h
      injection h with h
      exact .inr (.inr (.inr (.inr (.inr ⟨w, rest, rfl, h.symm⟩))))

/-! ### What a reset leaves -/

/-- An abandoned command leaves the reset state, one draw, and at most one more response. -/
theorem abandonCommand_eq (s : State) :
    ∃ rs, (rs = s.responses ∨ ∃ r, rs = r :: s.responses) ∧
      abandonCommand s = { applyReset s with responses := rs, draws := s.draws + 1 } := by
  unfold abandonCommand respondIf
  split
  · exact ⟨_, .inl rfl, rfl⟩
  · next r _ => exact ⟨_, .inr ⟨r, rfl⟩, rfl⟩

/-! ### The next event, by its form -/

theorem nextCommand_of_write {s : State} {w : Word} {rest : List PortEvent} (h : s.pending = .write 0x00 .word w :: rest) :
    resetsNext s = false ∧ nextCommandWord s = some w ∧ nextCommand s = (decode w).toOption := by
  simp [resetsNext, nextCommandWord, nextCommand, h]

end Sys2Proof.Machine
end

