-- ==== Sys2Proof/Laws/Runs.lean ====
section
/-! SUPPORT. Runs of several steps, what a step does to the digest's state, and which fields `Holds` looks at (spec
44_digest_commands.md R96, R97). -/

namespace Sys2Proof.Machine

seal cf

/-! ### Several steps -/

@[simp] theorem stepN_zero (s : State) : stepN 0 s = .next s := rfl

theorem stepN_succ {s u : State} (k : Nat) (h : step s = .next u) : stepN (k + 1) s = stepN k u := by
  rw [stepN, h]

/-- A run of one step and more has a first step. -/
theorem stepN_succ_inv {k : Nat} {s t : State} (h : stepN (k + 1) s = .next t) :
    ∃ u, step s = .next u ∧ stepN k u = .next t := by
  rw [stepN] at h
  split at h
  · next u hs => exact ⟨u, hs, h⟩
  · cases h
  · cases h

/-- A run goes on from where a shorter one ends. -/
theorem stepN_add {a : Nat} {s t : State} (b : Nat) (h : stepN a s = .next t) : stepN (a + b) s = stepN b t := by
  induction a generalizing s with
  | zero => injection h with h; rw [h, Nat.zero_add]
  | succ a ih =>
    obtain ⟨u, hs, hu⟩ := stepN_succ_inv h
    rw [Nat.succ_add, stepN_succ _ hs, ih hu]

theorem messageAfterN_succ {s u : State} (k : Nat) (m : List Byte) (h : step s = .next u) :
    messageAfterN (k + 1) s m = messageAfterN k u (messageAfter s m) := by
  rw [messageAfterN, h]

/-! ### The digest's part of the state in one step -/

theorem toOption_of_ok {ε α : Type} {x : Except ε α} {a : α} (h : x = .ok a) : x.toOption = some a := by subst h; rfl

theorem toOption_of_error {ε α : Type} {x : Except ε α} {e : ε} (h : x = .error e) : x.toOption = none := by subst h; rfl

/-- A step resets the digest's part of the state, or keeps it, or executes the word written to CMD. -/
theorem step_core_cases {s t : State} (h : step s = .next t) :
    (resetsNext s = true ∧ t.v = iv ∧ t.bufLen = 0 ∧ t.bitCnt = 0 ∧ t.phase = .fresh ∧ t.errCode = .none) ∨
    (resetsNext s = false ∧ nextCommandWord s = none ∧ nextCommand s = none ∧ t.v = s.v ∧ t.buf = s.buf ∧
      t.bufLen = s.bufLen ∧ t.bitCnt = s.bitCnt ∧ t.phase = s.phase ∧ t.errCode = s.errCode) ∨
    (resetsNext s = false ∧ ∃ w rest u, s.pending = .write 0x00 .word w :: rest ∧ nextCommandWord s = some w ∧
      nextCommand s = (decode w).toOption ∧ execute w (withPending rest s) = .next u ∧ t = respond .ok u) := by
  rcases step_cases h with ⟨hp, rfl⟩ | ⟨⟨hr, hw, -⟩, _, _, _, -, rfl⟩ | ⟨_, _, hp, rfl⟩ | ⟨w, rest, u, hp, he, rfl⟩ |
    ⟨_, hp, rfl⟩ | ⟨_, rest, hp, rfl⟩
  · exact .inr (.inl (by simp [resetsNext, nextCommandWord, nextCommand, hp]))
  · exact .inr (.inl (by simp [hr, hw, nextCommand]))
  · exact .inr (.inl (by simp [resetsNext, nextCommandWord, nextCommand, hp]))
  · obtain ⟨hr, hw, hc⟩ := nextCommand_of_write hp
    exact .inr (.inr ⟨hr, w, rest, u, hp, hw, hc, he, rfl⟩)
  · exact .inl (by simp [resetsNext, hp])
  · obtain ⟨rs, -, e⟩ := abandonCommand_eq (withPending rest s)
    exact .inl (by simp [resetsNext, hp, e])

/-! ### The message a state stands for -/

/-- Before FINAL, standing for a message is what V and the buffer accumulate from the IV. -/
theorem Holds.accumulates {s : State} {m : List Byte} (h : Holds s m) (hf : s.phase ≠ .final) : Accumulates iv m s :=
  ⟨h.chain hf, h.tail hf⟩

/-- `Holds` looks at five fields only. -/
theorem Holds.congr {s t : State} {m : List Byte} (h : Holds s m) (hv : t.v = s.v) (hb : t.buf = s.buf)
    (hl : t.bufLen = s.bufLen) (hc : t.bitCnt = s.bitCnt) (hp : t.phase = s.phase) : Holds t m where
  bitCnt_eq := hc ▸ h.bitCnt_eq
  fresh_empty := hp ▸ h.fresh_empty
  chain := by rw [hp, hv]; exact h.chain
  tail := by rw [hp]; unfold bufTail; rw [hb, hl]; exact h.tail
  digest := by rw [hp, hv, hl]; exact h.digest

end Sys2Proof.Machine
end

