-- ==== Sys2Proof/Laws/Schedule.lean ====
section
/-! SUPPORT. The message scheduler's list of words grows at its end only (spec 42_message_schedule.md R84), and a fold over
rounds is a sequence of register states (43_compression.md R90). -/

namespace Sys2Proof.Machine

@[simp] theorem loadWords_length (b : Block) : (loadWords b).length = 16 := by simp [loadWords]

@[simp] theorem extendWords_length (n : Nat) (ws : List Word) : (extendWords n ws).length = ws.length + n := by
  induction n generalizing ws with
  | zero => rfl
  | succ n ih => rw [extendWords, ih]; simp; omega

/-- A word once computed stays. -/
theorem extendWords_getD_of_lt {n : Nat} {ws : List Word} {i : Nat} (h : i < ws.length) :
    (extendWords n ws).getD i 0 = ws.getD i 0 := by
  induction n generalizing ws with
  | zero => rfl
  | succ n ih => rw [extendWords, ih (by simp; omega), List.getD_append _ _ _ _ h]

/-- Word `i` is computed from the words before it. -/
theorem extendWords_getD_next {n : Nat} {ws : List Word} (h : 0 < n) :
    (extendWords n ws).getD ws.length 0 = nextWord ws := by
  obtain ⟨m, rfl⟩ : ∃ m, n = m + 1 := ⟨n - 1, by omega⟩
  rw [extendWords, extendWords_getD_of_lt (by simp)]
  simp

/-- Extending in two goes. -/
theorem extendWords_add (m n : Nat) (ws : List Word) : extendWords (m + n) ws = extendWords n (extendWords m ws) := by
  induction m generalizing ws with
  | zero => rw [Nat.zero_add]; rfl
  | succ m ih => rw [Nat.succ_add, extendWords, ih]; rfl

/-- A fold over 0..n-1 is the last of a sequence of states, each from the one before. -/
theorem foldl_range_sequence {α : Type} (f : α → Nat → α) (a : α) (n : Nat) :
    ∃ r : Nat → α, r 0 = a ∧ (∀ j < n, r (j + 1) = f (r j) j) ∧ (List.range n).foldl f a = r n := by
  refine ⟨fun k => (List.range k).foldl f a, rfl, ?_, rfl⟩
  intro j _
  simp [List.range_succ]

end Sys2Proof.Machine
end

