-- ==== Sys2Proof/Tests/Slice0.lean ====
section
/-! SUPPORT. The model's own tests, and for every statement with hypotheses a witness that meets them. The expected values come
from spec/95_test_vectors.md (V1 to V15) or from a command's encoding table, never from the model. -/

namespace Sys2Proof.Tests

open Sys2Proof.Machine

/-! ### Small states -/

/-- Reset, with one event on the port. -/
def queued (e : PortEvent) : State := withPending [e] State.reset

/-- A state with `n` bytes 'a' buffered, as an accumulating run leaves it. -/
def filled (n : Nat) : State :=
  { State.reset with
    buf := Vector.replicate 64 0x61, bufLen := BitVec.ofNat 6 n, bitCnt := BitVec.ofNat 64 (8 * n), phase := .accum,
    dataIn := 0x61616161 }

/-- A state in FINAL with an earlier error recorded. -/
def finished : State := { State.reset with phase := .final, errCode := .illegalCmd, bitCnt := 24 }

/-- A 32-bit write of a command word. -/
def cmdWrite (w : Word) : PortEvent := .write 0x00 .word w

/-- The next state of an outcome, if it is one. -/
def nextOf : Result → Option State
  | .next t => some t
  | .fault _ => none
  | .refused _ => none

/-- What one step on event `e` leaves of the state, seen through `f`. -/
def seen {α : Type} (e : PortEvent) (s : State) (f : State → α) : Option α :=
  (nextOf (step (withPending [e] s))).map f

/-! ### Well-formedness: the one check refuses an ill-formed term -/

theorem test_update_5_is_ill_formed : (Instr.update 5).wellFormed = false := by decide
theorem test_update_6_is_ill_formed : (Instr.update 6).wellFormed = false := by decide
theorem test_update_7_is_ill_formed : (Instr.update 7).wellFormed = false := by decide
theorem test_update_4_is_well_formed : (Instr.update 4).wellFormed = true := by decide

/-! ### Decoding: words written from R55 (RSV, NB, OP) and R56 -/

theorem test_decode_nop : decode 0b0000000000000000000000000_000_0000 = .ok .nop := rfl
theorem test_decode_init : decode 0b0000000000000000000000000_000_0001 = .ok .init := rfl
theorem test_decode_update : decode 0b0000000000000000000000000_011_0010 = .ok (.update 3) := rfl
theorem test_decode_finalize : decode 0b0000000000000000000000000_000_0011 = .ok .finalize := rfl
/-- V13: NB too large, OP reserved, NB not 0, RSV not 0. -/
theorem test_decode_illegal :
    decode 0b0000000000000000000000000_101_0010 = .error .byteCountTooLarge ∧
    decode 0b0000000000000000000000000_000_0100 = .error .reservedOp ∧
    decode 0b0000000000000000000000000_001_0000 = .error .byteCountNotZero ∧
    decode 0b0000000000000000000000001_000_0000 = .error .reservedBits ∧
    decode 0x80000001 = .error .reservedBits := ⟨rfl, rfl, rfl, rfl, rfl⟩
/-- The opcode table's rows, and a word whose upper bits the row does not give. -/
theorem test_decode_table_words :
    decodeTableWord 32 0 = some .nop ∧ decodeTableWord 32 1 = some .init ∧
    decodeTableWord 32 0x42 = some (.update 4) ∧ decodeTableWord 32 3 = some .finalize ∧
    decodeTableWord 32 0x52 = none := by decide

/-! ### Word operations, constants, padding, expansion, compression -/

/-- V8. -/
theorem test_rotl : rotl 0x12345678 12 = 0x45678123 ∧ rotl 0x80000001 1 = 0x00000003 ∧
    rotl 0x12345678 31 = 0x091A2B3C ∧ rotl 0x12345678 32 = 0x12345678 := by decide
/-- V8. -/
theorem test_ff : ff 0x0F0F0F0F 0x00FF00FF 0x33333333 15 = 0x3CC33CC3 ∧
    ff 0x0F0F0F0F 0x00FF00FF 0x33333333 16 = 0x033F033F := by decide
/-- V8. -/
theorem test_gg : gg 0x0F0F0F0F 0x00FF00FF 0x33333333 15 = 0x3CC33CC3 ∧
    gg 0x0F0F0F0F 0x00FF00FF 0x33333333 16 = 0x303F303F := by decide
/-- V8. -/
theorem test_p0_p1 : p0 0x12345678 = 0xD6688234 ∧ p0 0x80000000 = 0x80010100 ∧
    p1 0x12345678 = 0x05014549 ∧ p1 0x80000000 = 0x80404000 := by decide
/-- V9. -/
theorem test_trot : trot 1 = 0xF3988A32 ∧ trot 16 = 0x9D8A7A87 ∧ trot 33 = 0xF50F3B14 ∧ trot 63 = 0x3D43CEC5 := by decide
/-- V10. -/
theorem test_zero_count : zeroCount 3 = 52 ∧ zeroCount 55 = 0 ∧ zeroCount 56 = 63 ∧ zeroCount 63 = 56 := by decide
/-- V10: the byte order of the length field. -/
theorem test_length_field :
    (padTail [] 0x0102030405060708).drop 56 = [0x01, 0x02, 0x03, 0x04, 0x05, 0x06, 0x07, 0x08] := by decide
/-- V11: the block with a single 1 bit. -/
theorem test_expansion :
    let w := expandW (blockAt [0x80] 0)
    w.getD 16 0 = 0x80404000 ∧ w.getD 22 0 = 0xAC545C04 ∧ w.getD 67 0 = 0x709210D5 := by decide +kernel
/-- V6: the first round of the "abc" block. -/
theorem test_first_round : sm3Round 0 (loadWorking iv) 0x61626380 0x61626380 =
    ⟨0xB9EDC12B, 0x7380166F, 0x29657292, 0x172442D7, 0xB2AD29F4, 0xA96F30BC, 0xC550B189, 0xE38DEE4D⟩ := by decide
/-- V12. -/
theorem test_compression : cf iv (Vector.replicate 64 0) =
    #v[0xA1203A40, 0x4A5566CD, 0x536FCEE8, 0x20DF7E13, 0x35C58F56, 0xB7C4C62E, 0x813C32CC, 0x47BF9B6C] := by decide +kernel

/-! ### The commands, one step each -/

/-- V14: NOP keeps a sticky error code and everything STATUS shows. -/
theorem test_nop : seen (cmdWrite 0x00) { filled 3 with errCode := .illegalCmd } statusWord = some 0x00000309 := by decide
/-- V14: INIT out of FINAL clears STATUS and BITCNT, and the digest reads 0. -/
theorem test_init : seen (cmdWrite 0x01) finished (fun t => (statusWord t, t.bitCnt, readReg (.digest 0) t)) =
    some (0, 0, 0) := by decide
/-- V14: UPDATE 3 of "abc" buffers three bytes. -/
theorem test_update_buffers :
    seen (cmdWrite 0x32) { State.reset with dataIn := 0x61626300 } (fun t => (statusWord t, t.bitCnt, bufTail t)) =
      some (0x00000301, 24, [0x61, 0x62, 0x63]) := by decide
/-- V12: UPDATE 2 over the end of the block of zeros compresses it; STATUS has one byte left, PHASE ACCUM. -/
theorem test_update_compresses :
    seen (cmdWrite 0x22) { State.reset with bufLen := 63, bitCnt := 504, dataIn := 0x0077FFFF }
      (fun t => (t.v[0], statusWord t, bufTail t)) = some (0xA1203A40, 0x00000101, [0x77]) := by decide +kernel
/-- V1: FINALIZE of "abc" publishes the source's digest. -/
theorem test_finalize_abc :
    seen (cmdWrite 0x03) { filled 3 with buf := ((Vector.replicate 64 0x61).set 1 0x62).set 2 0x63 }
      (fun t => (t.v, statusWord t, t.bitCnt)) = some (
        #v[0x66C7F0F4, 0x62EEEDD9, 0xD1F2D46B, 0xDC10E4E2, 0x4167C487, 0x5CF2F7A2, 0x297DA02B, 0x8F4BA8E0],
        0x00000002, 24) := by decide +kernel
/-- V3: FINALIZE of 56 bytes 'a' compresses two blocks. -/
theorem test_finalize_two_blocks : seen (cmdWrite 0x03) (filled 56) (fun t => t.v) = some
    #v[0xBA00EBED, 0xAAB54065, 0xA5FD4F9F, 0x56326016, 0x203166BC, 0xEE3EED44, 0xEA868D59, 0xD67AA3C8] := by
  decide +kernel

/-! ### The port -/

/-- V14: an illegal word changes ERRCODE alone, and is answered OK. -/
theorem test_illegal_word : seen (cmdWrite 0x52) (filled 3) (fun t => (statusWord t, t.bitCnt, t.responses)) =
    some (0x00000309, 24, [.ok]) := by decide
/-- V14: UPDATE in FINAL. -/
theorem test_invalid_state : seen (cmdWrite 0x12) finished (fun t => (statusWord t, t.responses)) =
    some (0x00000006, [.ok]) := by decide
/-- V14: ILLEGAL_CMD wins in FINAL. -/
theorem test_illegal_wins : seen (cmdWrite 0x05) { finished with errCode := .invalidState } statusWord =
    some 0x0000000A := by decide
/-- V15: a write of the wrong size executes nothing. -/
theorem test_bus_error_write : seen (.write 0x00 .byte 0x01) finished (fun t => (t.errCode, t.phase, t.responses)) =
    some (.illegalCmd, .final, [.error]) := by decide
/-- V15: a misaligned read. -/
theorem test_bus_error_read : seen (.read 0x06 .word) State.reset (fun t => t.responses) = some [.error] := by decide
/-- V15: a reserved offset reads 0, and a write to DIGEST0 is ignored with OK. -/
theorem test_reserved_and_read_only : seen (.read 0x0C .word) finished (fun t => t.responses) = some [.data 0] ∧
    seen (.write 0x20 .word 0x12345678) finished (fun t => (t.v, t.responses)) = some (iv, [.ok]) := by decide
/-- P1: BITCNT_LO after "abc". -/
theorem test_bitcnt_read : seen (.read 0x10 .word) finished (fun t => t.responses) = some [.data 0x00000018] := by decide
/-- R128: reset leaves FINAL. -/
theorem test_reset : seen .reset finished (fun t => (statusWord t, t.v, t.dataIn)) = some (0, iv, 0) := by decide

/-! ### Witnesses: each meets all hypotheses of the statement it names, or of one clause of it -/

/-- A word outside the eight. -/
theorem witness_DecodeGivesEightLegalWords :
    (0x52 : Word) ∉ ([0x00, 0x01, 0x02, 0x12, 0x22, 0x32, 0x42, 0x03] : List Word) := by decide
/-- The largest byte count, both sides of the equivalence. -/
theorem witness_DecodeAgreesWithEncode :
    decode 0x42 = .ok (.update 4) ∧ (Instr.update 4).wellFormed = true ∧ encode (.update 4) = 0x42 := by decide
/-- An illegal word at the head of the queue, in FINAL. -/
theorem witness_IllegalWordsAreRejected :
    decode 0x52 = .error .byteCountTooLarge ∧ (withPending [cmdWrite 0x52] finished).pending = .write 0x00 .word 0x52 :: [] :=
  ⟨rfl, rfl⟩
theorem witness_StepRunsDecodedCommand :
    (queued (cmdWrite 0x01)).pending = .write 0x00 .word 0x01 :: [] ∧ decode 0x01 = .ok .init ∧
    exec .init { queued (cmdWrite 0x01) with pending := [] } = .next State.reset := ⟨rfl, rfl, rfl⟩
theorem witness_PlacedWordRunsNext : decodeTableWord 32 0x42 = some (.update 4) := by decide
/-- A rejected word, and with it the premise of the last clause. -/
theorem witness_CommandWriteAlwaysGetsOk :
    (withPending [cmdWrite 0x03] finished).pending = .write 0x00 .word 0x03 :: [] ∧
    ∀ i, decode 0x03 = .ok i → ¬ acceptedIn i (withPending [cmdWrite 0x03] finished).phase := by
  refine ⟨rfl, ?_⟩
  intro i h
  have h3 : decode 0x03 = .ok .finalize := rfl
  rw [h3] at h
  cases h
  exact fun h => h rfl
theorem witness_StepNeverStops : State.reset.pending = [] := rfl
theorem witness_OneResponsePerTransaction :
    step (queued (.read 0x04 .word)) = .next (respond (.data 0) State.reset) ∧
    (queued (.read 0x04 .word)).pending = .read 0x04 .word :: [] ∧
    step (queued (cmdWrite 0x00)) = .next (respond .ok State.reset) ∧
    (queued (cmdWrite 0x00)).pending = .write 0x00 .word 0x00 :: [] := ⟨rfl, rfl, rfl, rfl⟩
/-- Each clause of the read step: a bad size at an aligned offset, a bad offset, the named offsets, and the first and
the last digest register. -/
theorem witness_ReadTransactionStep :
    (queued (.read 0x3C .half)).pending = .read 0x3C .half :: [] ∧ AccessSize.half ≠ .word ∧
    (queued (.read 0x3F .word)).pending = .read 0x3F .word :: [] ∧ (0x3F : Offset).toNat % 4 ≠ 0 ∧
    (queued (.read 0x00 .word)).pending = .read 0x00 .word :: [] ∧
    (queued (.read 0x04 .word)).pending = .read 0x04 .word :: [] ∧
    (queued (.read 0x08 .word)).pending = .read 0x08 .word :: [] ∧
    (queued (.read 0x10 .word)).pending = .read 0x10 .word :: [] ∧
    (queued (.read 0x14 .word)).pending = .read 0x14 .word :: [] ∧
    (queued (.read 0x1C .word)).pending = .read 0x1C .word :: [] ∧ (0x1C : Offset) ∈ ([0x0C, 0x18, 0x1C] : List Offset) ∧
    (queued (.read 0x20 .word)).pending = .read 0x20 .word :: [] ∧ (0x20 : Offset).toNat = 0x20 + 4 * (0 : Fin 8).val ∧
    (queued (.read 0x3C .word)).pending = .read 0x3C .word :: [] ∧ (0x3C : Offset).toNat = 0x20 + 4 * (7 : Fin 8).val := by
  decide
/-- Each clause of the write step; the last at the first and the last ignored offset. -/
theorem witness_WriteTransactionStep :
    (queued (.write 0x00 .byte 1)).pending = .write 0x00 .byte 1 :: [] ∧ AccessSize.byte ≠ .word ∧
    (queued (.write 0x02 .word 1)).pending = .write 0x02 .word 1 :: [] ∧ (0x02 : Offset).toNat % 4 ≠ 0 ∧
    (queued (.write 0x00 .word 1)).pending = .write 0x00 .word 1 :: [] ∧
    (queued (.write 0x08 .word 1)).pending = .write 0x08 .word 1 :: [] ∧
    (queued (.write 0x04 .word 1)).pending = .write 0x04 .word 1 :: [] ∧
    (0x04 : Offset).toNat % 4 = 0 ∧ (0x04 : Offset) ≠ 0x00 ∧ (0x04 : Offset) ≠ 0x08 ∧
    (queued (.write 0x3C .word 1)).pending = .write 0x3C .word 1 :: [] ∧
    (0x3C : Offset).toNat % 4 = 0 ∧ (0x3C : Offset) ≠ 0x00 ∧ (0x3C : Offset) ≠ 0x08 := by decide
theorem witness_StatusRegisterLayout : (queued (.write 0x04 .word 7)).pending = .write 0x04 .word 7 :: [] := rfl
/-- The four clauses with hypotheses: a write, a read, an UPDATE, and steps that change DATA_IN (a write and a reset).
-/
theorem witness_DataInHoldsLastWrite :
    (queued (.write 0x08 .word 7)).pending = .write 0x08 .word 7 :: [] ∧
    (queued (.read 0x08 .word)).pending = .read 0x08 .word :: [] ∧
    exec (.update 0) State.reset = .next { State.reset with phase := .accum } ∧
    step (queued (.write 0x08 .word 7)) = .next { State.reset with dataIn := 7, responses := [.ok] } ∧
    (7 : Word) ≠ (queued (.write 0x08 .word 7)).dataIn ∧
    step (withPending [.reset] (filled 1)) = .next State.reset ∧ State.reset.dataIn ≠ (filled 1).dataIn := by
  refine ⟨rfl, rfl, rfl, rfl, by decide, rfl, by decide⟩
theorem witness_BitCntReadsAsPair :
    (withPending [.read 0x10 .word, .read 0x14 .word] finished).pending = .read 0x10 .word :: .read 0x14 .word :: [] ∧
    (queued (.write 0x10 .word 7)).pending = .write 0x10 .word 7 :: [] ∧
    (queued (.write 0x14 .word 7)).pending = .write 0x14 .word 7 :: [] ∧
    step (queued (.write 0x08 .word 7)) = .next { State.reset with dataIn := 7, responses := [.ok] } ∧
    resetsNext (queued (.write 0x08 .word 7)) = false ∧ nextCommandWord (queued (.write 0x08 .word 7)) = none :=
  ⟨rfl, rfl, rfl, rfl, rfl, by decide⟩
theorem witness_DigestRegisters :
    (queued (.read 0x20 .word)).pending = .read (BitVec.ofNat 6 (0x20 + 4 * (0 : Fin 8).val)) .word :: [] ∧
    (queued (.read 0x3C .word)).pending = .read (BitVec.ofNat 6 (0x20 + 4 * (7 : Fin 8).val)) .word :: [] ∧
    (queued (.write 0x3C .word 7)).pending = .write (BitVec.ofNat 6 (0x20 + 4 * (7 : Fin 8).val)) .word 7 :: [] ∧
    finished.phase = .final := ⟨rfl, rfl, rfl, rfl⟩
theorem witness_DigestByteOrder : finished.phase = .final := rfl
theorem witness_NamedOffsetsSelectTheirRegisters :
    regOffset (.digest 7) = some 0x3C ∧ (0x1C : Offset).toNat % 4 = 0 ∧ regAt 0x1C = .reserved := by decide
/-- The bytes next to the window on either side. -/
theorem witness_WindowStandsAtBase :
    Config.base + 64 ≤ Config.base + 64 ∧ (0 < Config.base → Config.base - 1 < Config.base) := ⟨le_rfl, by omega⟩
/-- Outside FINAL at both sides of the block's end, in FINAL, a count above 4, and a reserved bit. -/
theorem witness_UpdateAbsorbsBytes :
    ((4 : BitVec 3).toNat ≤ 4 ∧ (filled 59).phase ≠ .final ∧ (filled 59).bufLen.toNat + (4 : BitVec 3).toNat < 64) ∧
    ((4 : BitVec 3).toNat ≤ 4 ∧ (filled 60).phase ≠ .final ∧ 64 ≤ (filled 60).bufLen.toNat + (4 : BitVec 3).toNat) ∧
    ((0 : BitVec 3).toNat ≤ 4 ∧ finished.phase = .final) ∧
    ((0x52 : Word).extractLsb' 0 4 = 2 ∧ 4 < ((0x52 : Word).extractLsb' 4 3).toNat) ∧
    ((0x82 : Word).extractLsb' 0 4 = 2 ∧ (0x82 : Word).extractLsb' 7 25 ≠ 0) := by decide
/-- Each clause of the frame of UPDATE on BUF; with a full block, positions 63, 1 and 62. -/
theorem witness_UpdateKeepsOtherBufferBytes :
    (exec (.update 1) finished = .next { finished with errCode := .invalidState } ∧ finished.phase = .final) ∧
    (∃ t, exec (.update 1) (filled 62) = .next t ∧ (filled 62).bufLen.toNat + 1 < 64 ∧ (61 : Fin 64).val < 62) ∧
    (∃ t, exec (.update 1) (filled 62) = .next t ∧ (filled 62).bufLen.toNat + 1 ≤ (63 : Fin 64).val) ∧
    (∃ t, exec (.update 2) (filled 63) = .next t ∧ 64 ≤ (filled 63).bufLen.toNat + (2 : BitVec 3).toNat ∧
      (63 : Fin 64).val = 63 ∧
      (filled 63).bufLen.toNat + (2 : BitVec 3).toNat - 64 ≤ (1 : Fin 64).val ∧
      (1 : Fin 64).val < (filled 63).bufLen.toNat ∧
      (filled 63).bufLen.toNat + (2 : BitVec 3).toNat - 64 ≤ (62 : Fin 64).val ∧
      (62 : Fin 64).val < (filled 63).bufLen.toNat) := by
  refine ⟨⟨rfl, rfl⟩, ⟨_, rfl, by decide, by decide⟩, ⟨_, rfl, by decide⟩, ⟨_, rfl, by decide⟩⟩
/-- Each clause of FINALIZE: 55 and 56 buffered bytes, FINAL, an illegal word with OP 3, a step that keeps the digest. -/
theorem witness_FinalizePublishesDigest :
    ((filled 55).phase ≠ .final ∧ (filled 55).bufLen.toNat ≤ 55) ∧
    ((filled 56).phase ≠ .final ∧ 56 ≤ (filled 56).bufLen.toNat) ∧
    ((0x13 : Word).extractLsb' 0 4 = 3 ∧ (0x13 : Word) ≠ 0x00000003) ∧
    (withPending [cmdWrite 0x03] finished).phase = .final ∧ resetsNext (withPending [cmdWrite 0x03] finished) = false ∧
    nextCommand (withPending [cmdWrite 0x03] finished) = some .finalize := by decide
/-- Both commands: UPDATE 0 and FINALIZE. -/
theorem witness_InvalidStateLeavesDigestReadable :
    finished.phase = .final ∧ (Instr.update 0).wellFormed = true ∧
    exec (.update 0) finished = .next { finished with errCode := .invalidState } ∧
    exec .finalize finished = .next { finished with errCode := .invalidState } := ⟨rfl, rfl, rfl, rfl⟩
/-- A command the phase accepts, one it rejects, an illegal word, and a reset. -/
theorem witness_PhaseTransitionTable :
    (Instr.update 4).wellFormed = true ∧ (∃ t, exec (.update 4) State.reset = .next t) ∧
    exec .finalize finished = .next { finished with errCode := .invalidState } ∧
    decode 0x04 = .error .reservedOp ∧ resetsNext (queued .reset) = true ∧ step (queued .reset) = .next State.reset :=
  ⟨rfl, ⟨_, rfl⟩, rfl, rfl, rfl, rfl⟩
/-- Each clause: bad accesses, an illegal word in FINAL, both commands in FINAL. -/
theorem witness_ErrorPriority :
    ((queued (.write 0x00 .half 0x01)).pending = .write 0x00 .half 0x01 :: [] ∧ AccessSize.half ≠ .word) ∧
    ((queued (.read 0x3F .word)).pending = .read 0x3F .word :: [] ∧ (0x3F : Offset).toNat % 4 ≠ 0) ∧
    ((withPending [cmdWrite 0x05] finished).pending = .write 0x00 .word 0x05 :: [] ∧ decode 0x05 = .error .reservedOp) ∧
    ((withPending [cmdWrite 0x03] finished).phase = .final ∧ decode 0x03 = .ok .finalize) ∧
    decode 0x02 = .ok (.update 0) := ⟨⟨rfl, by decide⟩, ⟨rfl, by decide⟩, ⟨rfl, rfl⟩, ⟨rfl, rfl⟩, rfl⟩
theorem witness_BusErrorChangesNothing :
    (queued (.read 0x01 .word)).pending = .read 0x01 .word :: [] ∧ (0x01 : Offset).toNat % 4 ≠ 0 ∧
    (queued (.write 0x08 .half 0xFFFF)).pending = .write 0x08 .half 0xFFFF :: [] ∧ AccessSize.half ≠ .word := by decide
/-- A step of each kind that the writers' statements tell apart: INIT, a buffering UPDATE, a compressing UPDATE,
FINALIZE, NOP, a read, a reset. -/
theorem witness_writers_steps :
    (∃ t, step (queued (cmdWrite 0x01)) = .next t) ∧ (∃ t, step (withPending [cmdWrite 0x42] (filled 59)) = .next t) ∧
    (∃ t, step (withPending [cmdWrite 0x42] (filled 60)) = .next t) ∧ (∃ t, step (queued (cmdWrite 0x03)) = .next t) ∧
    (∃ t, step (queued (cmdWrite 0x00)) = .next t) ∧ (∃ t, step (queued (.read 0x04 .word)) = .next t) ∧
    ∃ t, step (queued .reset) = .next t :=
  ⟨⟨_, rfl⟩, ⟨_, rfl⟩, ⟨_, rfl⟩, ⟨_, rfl⟩, ⟨_, rfl⟩, ⟨_, rfl⟩, ⟨_, rfl⟩⟩
theorem witness_ChainingStateWriters : ∃ t, step (withPending [cmdWrite 0x42] (filled 60)) = .next t := ⟨_, rfl⟩
theorem witness_BufLenWriters : ∃ t, step (withPending [cmdWrite 0x42] (filled 60)) = .next t := ⟨_, rfl⟩
theorem witness_BitCntCountsMessageBits : ∃ t, step (withPending [cmdWrite 0x42] (filled 60)) = .next t := ⟨_, rfl⟩
/-- The step, and FINALIZE and UPDATE in FRESH and ACCUM. -/
theorem witness_PhaseWriters :
    (∃ t, step (queued (cmdWrite 0x03)) = .next t) ∧ State.reset.phase = .fresh ∧ Instr.update 4 ≠ .nop ∧
    (∃ t, exec (.update 4) State.reset = .next t) ∧ (∃ u, exec (.update 4) { State.reset with phase := .accum } = .next u) ∧
    (Instr.update 4).wellFormed = true := ⟨⟨_, rfl⟩, rfl, by decide, ⟨_, rfl⟩, ⟨_, rfl⟩, rfl⟩
theorem witness_ErrCodeIsSticky : ∃ t, step (withPending [cmdWrite 0x12] finished) = .next t := ⟨_, rfl⟩
theorem witness_ResetValues : (withPending [.reset] finished).pending = .reset :: [] := rfl
theorem witness_ResetAbandonsCommand :
    (withPending [.resetDuringCommand 0x03] (filled 56)).pending = .resetDuringCommand 0x03 :: [] := rfl
theorem witness_ResetIsInitPlusDataIn : ∃ t, exec .init finished = .next t := ⟨_, rfl⟩
/-- The first and the last bit. -/
theorem witness_RotlMovesBits : 0 < 32 ∧ 31 < 32 := by decide
/-- Rounds 15 and 16, bit 31. -/
theorem witness_BooleanMixes : 31 < 32 ∧ 15 < 16 ∧ 16 ≤ 16 := by decide
theorem witness_Permutations : 31 < 32 := by decide
theorem witness_RoundConstantsRotated : 63 < 64 ∧ 31 < 32 := by decide
theorem witness_PaddedTailCases :
    (List.replicate 55 (0 : Byte)).length ≤ 55 ∧
    (56 ≤ (List.replicate 56 (0 : Byte)).length ∧ (List.replicate 63 (0 : Byte)).length ≤ 63) := by decide
theorem witness_ExpansionRecurrence : 15 < 16 ∧ (16 ≤ 16 ∧ 67 < 68) ∧ 63 < 64 := by decide
theorem witness_CompressionIsSixtyFourRounds : 63 < 64 := by decide
/-- Each clause: the last byte of UPDATE 4; two words that agree in their three top bytes; the last word of a block. -/
theorem witness_DataInByteLanes :
    ((4 : BitVec 3).toNat ≤ 4 ∧ 3 < (4 : BitVec 3).toNat) ∧
    (∀ i, 32 - 8 * (3 : BitVec 3).toNat ≤ i → i < 32 → (0x616263FF : Word).getLsbD i = (0x61626300 : Word).getLsbD i) ∧
    ((List.replicate 60 (0 : Byte)).length = 4 * 15 ∧ 15 < 16) := by
  refine ⟨by decide, ?_, by decide⟩
  intro i h1 h2
  have h1 : 8 ≤ i := h1
  interval_cases i <;> rfl
theorem witness_StepKeepsMessage :
    Holds (queued (cmdWrite 0x32)) [] ∧ ∃ t, step (queued (cmdWrite 0x32)) = .next t :=
  ⟨⟨rfl, fun _ => rfl, fun _ => rfl, fun _ => rfl, fun h => nomatch h⟩, ⟨_, rfl⟩⟩
theorem witness_ResetAndInitHoldEmptyMessage : ∃ t, exec .init finished = .next t := ⟨_, rfl⟩
/-- Both starts; a run of one UPDATE; FINALIZE. -/
theorem witness_DigestIsSm3OfMessage :
    (∃ s₀, exec .init (withPending [cmdWrite 0x32] finished) = .next s₀ ∧ ∃ t, stepN 1 s₀ = .next t ∧ t.phase ≠ .final ∧
      ∃ u, exec .finalize t = .next u) ∧
    ∃ t, stepN 1 (withPending [cmdWrite 0x32] State.reset) = .next t ∧ t.phase ≠ .final ∧ ∃ u, exec .finalize t = .next u :=
  ⟨⟨_, rfl, _, rfl, nofun, _, rfl⟩, _, rfl, nofun, _, rfl⟩
/-- "abc" split into two PUSHes, and no PUSH at all. -/
theorem witness_AnySplitGivesSm3 :
    let ps : List (BitVec 3 × Word) := [(2, 0x61620000), (1, 0x63FFFFFF)]
    (∀ p ∈ ps, p.1.toNat ≤ 4) ∧ (withPending (asmEvents (hashPushes ps) ++ []) finished).pending = asmEvents (hashPushes ps) ++ [] ∧
    (withPending (asmEvents (hashPushes [])) finished).pending = asmEvents (hashPushes []) ++ [] :=
  ⟨by simp, rfl, rfl⟩
theorem witness_HashProgramAnswersSm3 :
    (withPending (asmEvents (hashLines [0x61, 0x62, 0x63]) ++ [.reset]) finished).pending =
      asmEvents (hashLines [0x61, 0x62, 0x63]) ++ [.reset] := rfl
/-- The invariant, in a state that holds bytes, and a step from it. -/
theorem witness_StepKeepsInvariant :
    Inv (withPending [cmdWrite 0x42] (filled 60)) ∧ ∃ t, step (withPending [cmdWrite 0x42] (filled 60)) = .next t :=
  ⟨⟨by decide, by decide, by decide, by decide⟩, ⟨_, rfl⟩⟩
/-- A state in FINAL after one byte, reached from reset. -/
theorem witness_BufLenMatchesBitCntEverywhere :
    ∃ s, Reachable s ∧ s.phase = .final ∧ s.bufLen = 0 ∧ s.bitCnt = 8 :=
  ⟨_, ⟨[cmdWrite 0x12, cmdWrite 0x03], 2, rfl⟩, rfl, rfl, rfl⟩
/-- Two states that differ above BUFLEN, and a step of both. -/
theorem witness_BufferDontCaresAreUnobservable :
    let s := withPending [cmdWrite 0x12] (filled 3)
    let t := { s with buf := s.buf.set 3 0xFF }
    s.buf ≠ t.buf ∧ SameUpToDontCare s t ∧ (∃ s', stepN 1 s = .next s') ∧ ∃ t', stepN 1 t = .next t' :=
  ⟨by decide, ⟨rfl, by decide⟩, ⟨_, rfl⟩, ⟨_, rfl⟩⟩
/-- Two states that differ in V, and a run of both that stays out of FINAL. -/
theorem witness_NoPartialResults :
    let s := withPending [.read 0x20 .word] (filled 3)
    let t := { s with v := s.v.set 0 0 }
    s.v ≠ t.v ∧ SameUpToHashState s t ∧ StaysOutOfFinal 1 s ∧ (∃ s', stepN 1 s = .next s') ∧ (∃ t', stepN 1 t = .next t') ∧
      (filled 3).phase ≠ .final := by
  refine ⟨by decide, rfl, ⟨by decide, ?_⟩, ⟨_, rfl⟩, ⟨_, rfl⟩, by decide⟩
  intro t h
  injection h with h
  rw [← h]
  exact nofun
/-- Each clause: an event that is no reset, an aligned offset, a state outside FINAL, the largest count. -/
theorem witness_TransactionsTakeFiniteTime :
    (cmdWrite 0x01 ≠ .reset ∧ ∀ w, cmdWrite 0x01 ≠ .resetDuringCommand w) ∧ (0x3C : Offset).toNat % 4 = 0 ∧
    (filled 60).phase ≠ .final ∧ (4 : BitVec 3).toNat ≤ 4 := ⟨⟨nofun, nofun⟩, by decide, by decide, by decide⟩

/-- Each clause: a transaction is equal to itself as a request, a response to it as a reply; a read and a write. -/
theorem witness_BusCarriesPortOneToOne :
    let p := Config.busProtocol
    ((PortEvent.read 0x3C .word).isTransaction = true ∧
      p.sendRequest (.read 0x3C .word) = p.sendRequest (.read 0x3C .word)) ∧
    (Response.error.answers (.write 0x00 .byte 1) = true ∧
      p.sendReply (.write 0x00 .byte 1) .error = p.sendReply (.write 0x00 .byte 1) .error) ∧
    (cmdWrite 0x03).isTransaction = true := ⟨⟨rfl, rfl⟩, ⟨rfl, rfl⟩, rfl⟩
/-- R37 over the bus: a byte write is answered with the bus's ERROR. -/
theorem test_bus_error_reply :
    (busExchange BusProtocol.direct (.write 0x00 .byte 0x01) finished).map (fun x => x.1) = some .error := rfl

end Sys2Proof.Tests
end

/-! The writers of each piece of state, and the registers that show it (spec 10_state.md R16 to R29). -/

namespace Sys2Proof.Machine

/-! ### Aligned accesses -/

theorem readReg_withPending (r : PortReg) (es : List PortEvent) (s : State) :
    readReg r (withPending es s) = readReg r s := by
  cases r <;> rfl

/-- An aligned 32-bit read answers the register's value and changes nothing else (R111). -/
theorem step_read_aligned {s : State} {off : Offset} {rest : List PortEvent} (h : s.pending = .read off .word :: rest)
    (ho : off.toNat % 4 = 0) :
    step s = .next (respond (.data (readReg (regAt off) s)) (withPending rest s)) := by
  rw [serve_read h, serveRead, accessCheck_ok rfl ho, readReg_withPending]

/-- An aligned 32-bit write to a register other than CMD writes that register and answers OK (R111). -/
theorem step_write_aligned {s : State} {off : Offset} {d : Word} {rest : List PortEvent}
    (h : s.pending = .write off .word d :: rest) (ho : off.toNat % 4 = 0) (hcmd : regAt off ≠ .cmd) :
    step s = .next (respond .ok (writeReg (regAt off) d (withPending rest s))) := by
  rw [serve_write h, serveWrite, accessCheck_ok rfl ho]
  exact serveAlignedWrite_of_ne_cmd hcmd d _

/-- An aligned 32-bit write to a register other than CMD and DATA_IN is ignored with OK (R26 to R30). -/
theorem step_write_ignored {s : State} {off : Offset} {d : Word} {rest : List PortEvent}
    (h : s.pending = .write off .word d :: rest) (ho : off.toNat % 4 = 0) (hcmd : regAt off ≠ .cmd)
    (hdata : regAt off ≠ .dataIn) : step s = .next (respond .ok (withPending rest s)) := by
  rw [step_write_aligned h ho hcmd, writeReg_ignored hdata]

theorem digestOffset_aligned : ∀ k : Fin 8, (BitVec.ofNat 6 (0x20 + 4 * k.val)).toNat % 4 = 0 := by decide

@[simp] theorem regAt_digestOffset : ∀ k : Fin 8, regAt (BitVec.ofNat 6 (0x20 + 4 * k.val)) = .digest k := by decide

/-! ### STATUS -/

/-- STATUS as a number: its three fields, with nothing between or above them (R26). -/
theorem statusWord_toNat (s : State) :
    (statusWord s).toNat =
      256 * s.bufLen.toNat + 4 * (errCodeCode s.errCode).toNat + (phaseCode s.phase).toNat := by
  have hb := s.bufLen.isLt
  have he := (errCodeCode s.errCode).isLt
  have hp := (phaseCode s.phase).isLt
  have h1 := BitVec.toNat_append (s.bufLen ++ (0 : BitVec 4) ++ errCodeCode s.errCode) (phaseCode s.phase)
  have h2 := BitVec.toNat_append (s.bufLen ++ (0 : BitVec 4)) (errCodeCode s.errCode)
  have h3 := BitVec.toNat_append s.bufLen (0 : BitVec 4)
  rw [← Nat.shiftLeft_add_eq_or_of_lt (BitVec.isLt _), Nat.shiftLeft_eq] at h1 h2 h3
  have h0 : (0 : BitVec 4).toNat = 0 := rfl
  rw [statusWord, BitVec.toNat_setWidth]
  omega

/-- A field of STATUS, cut out, as a number. -/
theorem statusWord_extract_toNat (s : State) (start len : Nat) :
    ((statusWord s).extractLsb' start len).toNat =
      (256 * s.bufLen.toNat + 4 * (errCodeCode s.errCode).toNat + (phaseCode s.phase).toNat) / 2 ^ start % 2 ^ len := by
  rw [BitVec.extractLsb'_toNat, Nat.shiftRight_eq_div_pow, statusWord_toNat]

/-- STATUS[1:0] is PHASE. -/
theorem statusWord_phase (s : State) : (statusWord s).extractLsb' 0 2 = phaseCode s.phase := by
  apply BitVec.eq_of_toNat_eq
  have := (phaseCode s.phase).isLt
  rw [statusWord_extract_toNat]
  omega

/-- STATUS[3:2] is ERRCODE. -/
theorem statusWord_errCode (s : State) : (statusWord s).extractLsb' 2 2 = errCodeCode s.errCode := by
  apply BitVec.eq_of_toNat_eq
  have := (phaseCode s.phase).isLt
  have := (errCodeCode s.errCode).isLt
  rw [statusWord_extract_toNat]
  omega

/-- STATUS[13:8] is BUFLEN. -/
theorem statusWord_bufLen (s : State) : (statusWord s).extractLsb' 8 6 = s.bufLen := by
  apply BitVec.eq_of_toNat_eq
  have := (phaseCode s.phase).isLt
  have := (errCodeCode s.errCode).isLt
  have := s.bufLen.isLt
  rw [statusWord_extract_toNat]
  omega

/-- STATUS[7:4] and STATUS[31:14] are reserved and read 0. -/
theorem statusWord_reserved (s : State) :
    (statusWord s).extractLsb' 4 4 = 0 ∧ (statusWord s).extractLsb' 14 18 = 0 := by
  have := (phaseCode s.phase).isLt
  have := (errCodeCode s.errCode).isLt
  have := s.bufLen.isLt
  constructor <;> apply BitVec.eq_of_toNat_eq <;>
    rw [statusWord_extract_toNat, BitVec.ofNat_eq_ofNat, BitVec.toNat_zero] <;> omega

/-! ### The fields after UPDATE -/

/-- UPDATE that leaves the buffer short of 64 bytes compresses nothing (R104). -/
theorem updateEffect_v_of_lt {nb : BitVec 3} {s : State} (h : s.bufLen.toNat + nb.toNat < 64) :
    (updateEffect nb s).v = s.v := by
  have hv := ((accumulates_self s).updateEffect nb).1
  rwa [List.length_append, bufTail_length, messageBytes_length, Nat.div_eq_of_lt h] at hv

/-- UPDATE that brings the buffer to 64 bytes compresses one block (R104). -/
theorem updateEffect_v_of_ge {nb : BitVec 3} {s : State} (h : 64 ≤ s.bufLen.toNat + nb.toNat) :
    (updateEffect nb s).v = cf s.v (blockAt (bufTail s ++ messageBytes nb s.dataIn) 0) := by
  have hv := ((accumulates_self s).updateEffect nb).1
  have hlt := s.bufLen.isLt
  have hn := nb.isLt
  rwa [List.length_append, bufTail_length, messageBytes_length,
    show (s.bufLen.toNat + nb.toNat) / 64 = 1 by omega, compressBlocks_one] at hv

@[simp] theorem updateEffect_bitCnt (nb : BitVec 3) (s : State) :
    (updateEffect nb s).bitCnt = s.bitCnt + BitVec.ofNat 64 (8 * nb.toNat) := by
  simp [updateEffect, byteCount]

@[simp] theorem updateEffect_phase (nb : BitVec 3) (s : State) : (updateEffect nb s).phase = .accum := rfl

@[simp] theorem updateEffect_errCode (nb : BitVec 3) (s : State) : (updateEffect nb s).errCode = s.errCode := by
  simp [updateEffect]

@[simp] theorem updateEffect_dataIn (nb : BitVec 3) (s : State) : (updateEffect nb s).dataIn = s.dataIn := by
  simp [updateEffect]

/-! ### UPDATE looks at neither the queue nor the PHASE it replaces -/

theorem absorbByte_setPhasePending (p : Phase) (es : List PortEvent) (s : State) (b : Byte) :
    absorbByte { s with phase := p, pending := es } b = { absorbByte s b with phase := p, pending := es } := by
  by_cases h : s.bufLen = 63
  · rw [absorbByte_of_eq b h, absorbByte_of_eq (s := { s with phase := p, pending := es }) b h]
    rfl
  · rw [absorbByte_of_ne b h, absorbByte_of_ne (s := { s with phase := p, pending := es }) b h]
    rfl

theorem absorbBytes_setPhasePending (p : Phase) (es : List PortEvent) (bs : List Byte) (s : State) :
    absorbBytes bs { s with phase := p, pending := es } = { absorbBytes bs s with phase := p, pending := es } := by
  induction bs generalizing s with
  | nil => rfl
  | cons b bs ih => rw [absorbBytes_cons, absorbBytes_cons, absorbByte_setPhasePending, ih]

theorem updateEffect_setPhasePending (p : Phase) (es : List PortEvent) (nb : BitVec 3) (s : State) :
    updateEffect nb { s with phase := p, pending := es } = withPending es (updateEffect nb s) := by
  unfold updateEffect
  rw [absorbBytes_setPhasePending]
  rfl

theorem updateEffect_withPending (es : List PortEvent) (nb : BitVec 3) (s : State) :
    updateEffect nb (withPending es s) = withPending es (updateEffect nb s) :=
  updateEffect_setPhasePending s.phase es nb s

@[simp] theorem updateEffect_pending (nb : BitVec 3) (s : State) : (updateEffect nb s).pending = s.pending := by
  simp [updateEffect]

theorem updateEffect_setPhase (p : Phase) (nb : BitVec 3) (s : State) :
    updateEffect nb { s with phase := p } = updateEffect nb s :=
  calc updateEffect nb { s with phase := p }
    _ = withPending s.pending (updateEffect nb s) := updateEffect_setPhasePending p s.pending nb s
    _ = withPending (updateEffect nb s).pending (updateEffect nb s) := by rw [updateEffect_pending]
    _ = updateEffect nb s := rfl

/-! ### What one command and one step can do -/

/-- What executing a command word makes of the state, by what the word decodes to and by PHASE (R99, R106). -/
inductive CommandEffect (s : State) : Except IllegalWord Instr → State → Prop
  | illegal {e : IllegalWord} : CommandEffect s (.error e) (raiseCmdError .illegalCmd s)
  | nop : CommandEffect s (.ok .nop) s
  | init : CommandEffect s (.ok .init) (startDigest s)
  | update {nb : BitVec 3} (hf : s.phase ≠ .final) : CommandEffect s (.ok (.update nb)) (updateEffect nb s)
  | updateRejected {nb : BitVec 3} (hf : s.phase = .final) :
      CommandEffect s (.ok (.update nb)) (raiseCmdError .invalidState s)
  | finalize (hf : s.phase ≠ .final) : CommandEffect s (.ok .finalize) (publish s)
  | finalizeRejected (hf : s.phase = .final) : CommandEffect s (.ok .finalize) (raiseCmdError .invalidState s)

theorem commandEffect_of_execute {w : Word} {s u : State} (h : execute w s = .next u) :
    CommandEffect s (decode w) u := by
  rcases execute_cases w s with ⟨⟨_, hd⟩, hx⟩ | ⟨hf, hd | ⟨_, -, hd⟩, hx⟩ | ⟨hd, hx⟩ | ⟨hd, hx⟩ | ⟨hf, _, -, hd, hx⟩ |
    ⟨hf, hd, hx⟩ <;> obtain rfl := Host.Outcome.next.inj (hx.symm.trans h) <;> rw [hd]
  · exact .illegal
  · exact .finalizeRejected hf
  · exact .updateRejected hf
  · exact .nop
  · exact .init
  · exact .update hf
  · exact .finalize hf

/-- The queue behind the command plays no part in its effect. -/
theorem CommandEffect.of_withPending {s u : State} {es : List PortEvent} {d : Except IllegalWord Instr}
    (h : CommandEffect (withPending es s) d u) : ∃ t, CommandEffect s d t ∧ u = withPending es t := by
  cases h with
  | illegal => exact ⟨_, .illegal, rfl⟩
  | nop => exact ⟨_, .nop, rfl⟩
  | init => exact ⟨_, .init, rfl⟩
  | update hf => exact ⟨_, .update hf, updateEffect_withPending es _ s⟩
  | updateRejected hf => exact ⟨_, .updateRejected hf, rfl⟩
  | finalize hf => exact ⟨_, .finalize hf, rfl⟩
  | finalizeRejected hf => exact ⟨_, .finalizeRejected hf, rfl⟩

/-- What a step does to the digest's part of the state: a reset clears it, an event that is no CMD write keeps it, and a
CMD write has the effect of its word. -/
inductive StepEffect (s : State) : State → Prop
  | reset {t : State} (hr : resetsNext s = true) (hv : t.v = iv) (hl : t.bufLen = 0) (hb : t.bitCnt = 0)
      (hp : t.phase = .fresh) (he : t.errCode = .none) : StepEffect s t
  | quiet {t : State} (hr : resetsNext s = false) (hw : nextCommandWord s = none) (hc : nextCommand s = none)
      (hv : t.v = s.v) (hl : t.bufLen = s.bufLen) (hb : t.bitCnt = s.bitCnt) (hp : t.phase = s.phase)
      (he : t.errCode = s.errCode) : StepEffect s t
  | command {w : Word} {d : Except IllegalWord Instr} {rest : List PortEvent} {u : State} (hr : resetsNext s = false)
      (hw : nextCommandWord s = some w) (hd : decode w = d) (hc : nextCommand s = d.toOption)
      (hu : CommandEffect s d u) : StepEffect s (respond .ok (withPending rest u))

theorem stepEffect_of_step {s t : State} (h : step s = .next t) : StepEffect s t := by
  rcases step_core_cases h with ⟨hr, hv, hl, hb, hp, he⟩ | ⟨hr, hw, hc, hv, -, hl, hb, hp, he⟩ |
    ⟨hr, w, rest, u, -, hw, hc, hx, rfl⟩
  · exact .reset hr hv hl hb hp he
  · exact .quiet hr hw hc hv hl hb hp he
  · obtain ⟨u, hu, rfl⟩ := (commandEffect_of_execute hx).of_withPending
    exact .command hr hw rfl hc hu

/-! ### DATA_IN -/

/-- No command writes DATA_IN (R27). -/
theorem CommandEffect.dataIn {s u : State} {d : Except IllegalWord Instr} (h : CommandEffect s d u) :
    u.dataIn = s.dataIn := by
  cases h <;> simp

/-- UPDATE leaves DATA_IN, accepted or rejected (R27). -/
theorem exec_update_dataIn {nb : BitVec 3} {s t : State} (h : exec (.update nb) s = .next t) : t.dataIn = s.dataIn := by
  by_cases hn : nb.toNat ≤ 4
  · by_cases hf : s.phase = .final
    · rw [exec_update_of_final hn hf] at h
      obtain rfl := Host.Outcome.next.inj h
      rfl
    · rw [exec_update_of_ne hn hf] at h
      obtain rfl := Host.Outcome.next.inj h
      exact updateEffect_dataIn nb s
  · rw [exec_update_of_lt hn] at h
    obtain rfl := Host.Outcome.next.inj h
    rfl

/-- A step that changes DATA_IN is a reset or a write of it (R27). -/
theorem step_dataIn_ne {s t : State} (h : step s = .next t) (hne : t.dataIn ≠ s.dataIn) :
    (resetsNext s = true ∧ t.dataIn = 0) ∨ ∃ d rest, s.pending = .write 0x08 .word d :: rest ∧ t.dataIn = d := by
  rcases step_cases h with ⟨-, rfl⟩ | ⟨-, _, _, _, -, rfl⟩ | ⟨d, rest, hp, rfl⟩ | ⟨_, _, _, -, hx, rfl⟩ | ⟨_, hp, rfl⟩ |
    ⟨_, rest, hp, rfl⟩
  · exact absurd rfl hne
  · exact absurd rfl hne
  · exact .inr ⟨d, rest, hp, rfl⟩
  · exact absurd (commandEffect_of_execute hx).dataIn hne
  · exact .inl ⟨by simp [resetsNext, hp], rfl⟩
  · obtain ⟨rs, -, e⟩ := abandonCommand_eq (withPending rest s)
    exact .inl ⟨by simp [resetsNext, hp], by simp [e]⟩

/-- Settles O12: the window's lemmas for the accesses, `step_dataIn_ne` for the writers. -/
theorem dataInHoldsLastWrite : Obligations.DataInHoldsLastWrite := by
  refine ⟨rfl, ?_, ?_, fun _ _ _ => exec_update_dataIn, fun _ _ => step_dataIn_ne⟩
  · intro s d rest h
    exact step_write_aligned h (by decide) (by decide)
  · intro s rest h
    exact step_read_aligned h (by decide)

/-! ### The digest registers -/

/-- A chaining state's words, in order. -/
theorem chainState_toList (v : ChainState) : v.toList = (List.finRange 8).map fun k => v[k] := by
  apply List.ext_getElem
  · simp
  · intro i h1 h2
    simp

/-- In FINAL DIGESTk reads V[k] (R29). -/
theorem readReg_digest_of_final {s : State} (h : s.phase = .final) (k : Fin 8) : readReg (.digest k) s = s.v[k] :=
  if_pos h

/-- Settles O14: DIGESTk's offset is aligned and selects DIGESTk, and the digest's words are what the registers read. -/
theorem digestRegisters : Obligations.DigestRegisters := by
  refine ⟨?_, ?_, ?_, nofun⟩
  · intro s k rest h
    have hs := step_read_aligned h (digestOffset_aligned k)
    rw [regAt_digestOffset] at hs
    exact hs
  · intro s k d rest h
    exact step_write_ignored h (digestOffset_aligned k) (by simp) (by simp)
  · intro s hf
    simp only [readReg_digest_of_final hf, digestBytes, chainState_toList, List.flatMap_map]

/-! ### V, BUFLEN, BITCNT, PHASE and ERRCODE -/

/-- Settles O28: by the effect of the step; UPDATE by whether the buffer fills, FINALIZE by whether the length fits. -/
theorem chainingStateWriters : Obligations.ChainingStateWriters := by
  refine ⟨rfl, ?_⟩
  intro s t h
  cases stepEffect_of_step h with
  | reset hr hv => simp [hr, hv]
  | quiet hr _ hc hv => simp [hr, hc, hv]
  | command hr _ _ hc hu =>
    cases hu with
    | illegal => simp [hr, hc, Except.toOption]
    | nop => simp [hr, hc, Except.toOption]
    | init => simp [hr, hc, Except.toOption]
    | @update nb hf =>
      by_cases hl : 64 ≤ s.bufLen.toNat + nb.toNat
      · simpa [hr, hc, Except.toOption, hf, hl] using ⟨_, updateEffect_v_of_ge hl⟩
      · simpa [hr, hc, Except.toOption, hl] using updateEffect_v_of_lt (Nat.lt_of_not_le hl)
    | updateRejected hf => simp [hr, hc, Except.toOption, hf]
    | finalize hf =>
      rcases finalChain_cases s with ⟨hl, hv⟩ | ⟨hl, hv⟩
      · simpa [hr, hc, Except.toOption, hf, hl] using ⟨_, hv⟩
      · simpa [hr, hc, Except.toOption, hf, Nat.not_le_of_lt hl] using ⟨_, _, hv⟩
    | finalizeRejected hf => simp [hr, hc, Except.toOption, hf]

/-- Settles O29: by the effect of the step; STATUS shows the length by `statusWord_bufLen`. -/
theorem bufLenWriters : Obligations.BufLenWriters := by
  refine ⟨rfl, ?_⟩
  intro s t h
  refine ⟨t.bufLen.isLt, statusWord_bufLen t, ?_⟩
  cases stepEffect_of_step h with
  | reset hr _ hl => simp [hr, hl]
  | quiet hr _ hc _ hl => simp [hr, hc, hl]
  | command hr _ _ hc hu => cases hu <;> simp [Except.toOption, updateEffect_bufLen, *]

/-- Settles O30: by the effect of the step; the halves make the whole by `halves_append`. -/
theorem bitCntCountsMessageBits : Obligations.BitCntCountsMessageBits := by
  refine ⟨rfl, fun s => halves_append s.bitCnt, ?_⟩
  intro s t h
  cases stepEffect_of_step h with
  | reset hr _ _ hb => simp [hr, hb]
  | quiet hr _ hc _ _ hb => simp [hr, hc, hb]
  | command hr _ _ hc hu => cases hu <;> simp [Except.toOption, *]

/-! ### FRESH and ACCUM -/

/-- A legal command other than NOP has the same effect in ACCUM as in FRESH (R20). -/
theorem exec_setPhase_accum {s : State} {i : Instr} (hs : s.phase = .fresh) (hi : i ≠ .nop) (hwf : i.wellFormed = true) :
    exec i { s with phase := .accum } = exec i s := by
  have hf : s.phase ≠ .final := by simp [hs]
  have ha : ({ s with phase := .accum } : State).phase ≠ .final := nofun
  cases i with
  | nop => exact absurd rfl hi
  | init => rfl
  | update nb =>
    have hn : nb.toNat ≤ 4 := of_decide_eq_true hwf
    rw [exec_update_of_ne hn hf, exec_update_of_ne hn ha, updateEffect_setPhase]
  | finalize =>
    rw [exec_finalize_of_ne hf, exec_finalize_of_ne ha]
    rfl

/-- Settles O31: PHASE by the effect of the step; FRESH and ACCUM by `exec_setPhase_accum`. -/
theorem phaseWriters : Obligations.PhaseWriters := by
  refine ⟨rfl, rfl, rfl, rfl, ?_, ?_⟩
  · intro s t h
    cases stepEffect_of_step h with
    | reset hr _ _ _ hp => simp [hr, hp]
    | quiet hr _ hc _ _ _ hp => simp [hr, hc, hp]
    | command hr _ _ hc hu => cases hu <;> simp [Except.toOption, *]
  · intro s t u i hs hi ht hu hwf
    exact Host.Outcome.next.inj (ht.symm.trans ((exec_setPhase_accum hs hi hwf).symm.trans hu))

/-- Settles O32: by the effect of the step. -/
theorem errCodeIsSticky : Obligations.ErrCodeIsSticky := by
  refine ⟨rfl, rfl, rfl, rfl, ?_⟩
  intro s t h
  cases stepEffect_of_step h with
  | reset hr _ _ _ _ he => simp [hr, he]
  | quiet hr hw _ _ _ _ _ he => simp [hr, hw, he]
  | command hr hw hd _ hu => cases hu <;> simp [*]

/-! ### STATUS and BITCNT on the port -/

/-- Settles O11: STATUS's fields by its value as a number. -/
theorem statusRegisterLayout : Obligations.StatusRegisterLayout := by
  refine ⟨?_, by decide, ?_⟩
  · intro s
    obtain ⟨hlow, hhigh⟩ := statusWord_reserved s
    refine ⟨statusWord_phase s, statusWord_errCode s, hlow, statusWord_bufLen s, hhigh, ?_, ?_⟩
    · cases s.phase <;> rfl
    · cases s.errCode <;> rfl
  · intro s d rest h
    exact step_write_ignored h (by decide) (by decide) (by decide)

/-- An event that is no CMD write and no reset keeps BITCNT (R28). -/
theorem step_bitCnt_of_quiet {s t : State} (h : step s = .next t) (hr : resetsNext s = false)
    (hw : nextCommandWord s = none) : t.bitCnt = s.bitCnt := by
  cases stepEffect_of_step h with
  | reset hr' => simp [hr] at hr'
  | quiet _ _ _ _ _ hb => exact hb
  | command _ hw' => simp [hw] at hw'

/-- Settles O13: two reads in a row answer the two halves; `step_bitCnt_of_quiet` for what may come between. -/
theorem bitCntReadsAsPair : Obligations.BitCntReadsAsPair := by
  refine ⟨?_, ?_, ?_, by decide, by decide⟩
  · intro s rest h
    refine ⟨readReg .bitCntLo s, readReg .bitCntHi s, halves_append s.bitCnt, ?_⟩
    rw [stepN_succ 1 (step_read_aligned h (by decide)), stepN_succ 0 (step_read_aligned rfl (by decide))]
    rfl
  · intro s t h hr hw
    have hb := step_bitCnt_of_quiet h hr hw
    simp [readReg, hb]
  · intro s off d rest hoff h
    rcases hoff with rfl | rfl <;> exact step_write_ignored h (by decide) (by decide) (by decide)

end Sys2Proof.Machine

/-! The byte lanes of DATA_IN and of the digest, and the accesses that are not defined (spec 20_memory.md R37, R42, R43). -/

namespace Sys2Proof.Machine

/-! ### Undefined accesses -/

/-- A read or write of a bad size or alignment answers ERROR and does nothing else (R37). -/
theorem step_of_bad_access {s : State} {off : Offset} {size : AccessSize} {d : Word} {rest : List PortEvent}
    (hbad : size ≠ .word ∨ off.toNat % 4 ≠ 0)
    (h : s.pending = .read off size :: rest ∨ s.pending = .write off size d :: rest) :
    step s = .next (respond .error (withPending rest s)) := by
  rcases h with h | h
  · rw [serve_read h, serveRead, accessCheck_error hbad]
  · rw [serve_write h, serveWrite, accessCheck_error hbad]

/-- Settles O27: the access check fails before anything else is looked at. -/
theorem busErrorChangesNothing : Obligations.BusErrorChangesNothing :=
  fun _ _ _ _ _ => step_of_bad_access

/-! ### The digest's bytes -/

/-- In a concatenation of pieces of equal length, position `c * k + i` is position `i` of piece `k`. -/
theorem getElem?_flatMap_of_length {α β : Type} {f : α → List β} {c : Nat} (hf : ∀ a, (f a).length = c) {i : Nat}
    (hi : i < c) (l : List α) (k : Nat) : (l.flatMap f)[c * k + i]? = l[k]?.bind fun a => (f a)[i]? := by
  induction l generalizing k with
  | nil => simp
  | cons a l ih =>
    rw [List.flatMap_cons]
    cases k with
    | zero => rw [List.getElem?_append_left (by simp [hf, hi])]; simp
    | succ k =>
      rw [List.getElem?_append_right (by rw [hf, Nat.mul_succ]; omega), hf,
        show c * (k + 1) + i - c = c * k + i by rw [Nat.mul_succ]; omega, ih, List.getElem?_cons_succ]

/-- Digest byte `4k+i` is byte `i` of `V[k]` (R43). -/
theorem digestBytes_getElem? (v : ChainState) (k : Fin 8) (i : Fin 4) :
    (digestBytes v)[4 * k.val + i.val]? = some (byteOfWord v[k] i) := by
  rw [digestBytes, getElem?_flatMap_of_length (by simp [wordBytes]) i.isLt]
  simp [wordBytes]

/-- Settles O15: in FINAL DIGESTk reads `V[k]`. -/
theorem digestByteOrder : Obligations.DigestByteOrder := by
  intro s k i
  refine ⟨digestBytes_getElem? s.v k i, fun hf => ?_⟩
  rw [readReg_digest_of_final hf]
  exact digestBytes_getElem? s.v k i

/-! ### UPDATE's message bytes -/

theorem messageBytes_getElem? {nb : BitVec 3} {i : Nat} (hi : i < nb.toNat) (d : Word) :
    (messageBytes nb d)[i]? = some (byteOfWord d i) := by
  simp [messageBytes, byteCount, hi]

theorem messageBytes_four (d : Word) :
    messageBytes 4 d = [byteOfWord d 0, byteOfWord d 1, byteOfWord d 2, byteOfWord d 3] := rfl

/-- Byte `i` of a word looks at no bit below `24 - 8i`. -/
theorem byteOfWord_congr {d d' : Word} {i : Nat} (h : ∀ j, 24 - 8 * i ≤ j → d.getLsbD j = d'.getLsbD j) :
    byteOfWord d i = byteOfWord d' i := by
  apply BitVec.eq_of_getLsbD_eq
  intro j _
  simp only [byteOfWord, BitVec.getLsbD_extractLsb', h _ (Nat.le_add_right _ j)]

/-- The low-order bits of DATA_IN below the last byte taken do not matter (R42). -/
theorem messageBytes_congr {nb : BitVec 3} {d d' : Word} (h : ∀ j, 32 - 8 * nb.toNat ≤ j → d.getLsbD j = d'.getLsbD j) :
    messageBytes nb d = messageBytes nb d' := by
  apply List.map_congr_left
  intro i hi
  have hi : i < nb.toNat := List.mem_range.1 hi
  exact byteOfWord_congr fun j hj => h j (by omega)

/-! ### From DATA_IN to the block's words -/

theorem loadWords_getD {i : Nat} (hi : i < 16) (b : Block) :
    (loadWords b).getD i 0 =
      be32 (b.getD (4 * i) 0) (b.getD (4 * i + 1) 0) (b.getD (4 * i + 2) 0) (b.getD (4 * i + 3) 0) := by
  simp [loadWords, hi]

theorem blockAt_getD (bs : List Byte) (b : Nat) {i : Nat} (hi : i < 64) :
    (blockAt bs b).getD i 0 = bs.getD (64 * b + i) 0 := by
  rw [← blockAt_get bs b i hi]
  simp [Vector.getD, hi]

/-- A word of the first block is the big-endian word of its four bytes of the sequence (R83). -/
theorem loadWords_blockAt_zero_getD {i : Nat} (hi : i < 16) (bs : List Byte) :
    (loadWords (blockAt bs 0)).getD i 0 =
      be32 (bs.getD (4 * i) 0) (bs.getD (4 * i + 1) 0) (bs.getD (4 * i + 2) 0) (bs.getD (4 * i + 3) 0) := by
  rw [loadWords_getD hi, blockAt_getD _ _ (by omega), blockAt_getD _ _ (by omega), blockAt_getD _ _ (by omega),
    blockAt_getD _ _ (by omega)]
  simp only [Nat.mul_zero, Nat.zero_add]

/-- Settles O48: UPDATE's bytes one by one; `be32` and `byteOfWord` are inverse, so four bytes in their place are their
word again. -/
theorem dataInByteLanes : Obligations.DataInByteLanes := by
  refine ⟨fun nb d i _ hi => ⟨messageBytes_getElem? hi d, messageBytes_length nb d⟩,
    fun _ _ _ _ h => messageBytes_congr h, ?_, ?_⟩
  · intro b0 b1 b2 b3
    obtain ⟨h0, h1, h2, h3⟩ := byteOfWord_be32 b0 b1 b2 b3
    exact (messageBytes_four (be32 b0 b1 b2 b3)).trans (by rw [h0, h1, h2, h3])
  · intro pre post d i hlen hi
    rw [loadWords_blockAt_zero_getD hi, ← hlen, messageBytes_four, List.append_assoc]
    simpa using be32_byteOfWord d

end Sys2Proof.Machine

/-! The command words and the named offsets (spec 30_encoding.md R55 to R60, R63). -/

namespace Sys2Proof

/-! ### The legal words -/

/-- A word that decodes to a command is that command's encoding, and the command is well-formed (R58). -/
theorem wellFormed_and_encode_of_decode {w : Word} {i : Instr} (h : decode w = .ok i) :
    i.wellFormed = true ∧ encode i = w := by
  have hw (nb : BitVec 3) (op : BitVec 4) (hr : fieldRsv w = 0) (ho : fieldOp w = op) (hn : fieldNb w = nb) :
      commandWord nb op = w := by
    rw [eq_commandWord_of_fieldRsv hr, ho, hn]
  rcases decode_cases w with ⟨_, e⟩ | ⟨_, _, e⟩ | ⟨_, _, _, _, e⟩ | ⟨_, _, _, e⟩ | ⟨hr, ho, hn, e⟩ | ⟨hr, ho, hn, e⟩ |
    ⟨hr, ho, hn, e⟩ | ⟨hr, ho, hn, e⟩ <;> cases e.symm.trans h
  · exact ⟨rfl, hw _ _ hr ho hn⟩
  · exact ⟨rfl, hw _ _ hr ho hn⟩
  · exact ⟨decide_eq_true hn, hw _ _ hr ho rfl⟩
  · exact ⟨rfl, hw _ _ hr ho hn⟩

/-- The encoding of a well-formed command is one of the eight legal words (R58). -/
theorem encode_mem_legalWords {i : Instr} (h : i.wellFormed = true) :
    encode i ∈ ([0x00, 0x01, 0x02, 0x12, 0x22, 0x32, 0x42, 0x03] : List Word) := by
  cases i with
  | nop => decide
  | init => decide
  | update nb => revert nb; decide
  | finalize => decide

/-- Settles O1: a word outside the eight decodes to no command, since it would be that command's encoding. -/
theorem decodeGivesEightLegalWords : Obligations.DecodeGivesEightLegalWords := by
  refine ⟨rfl, rfl, rfl, rfl, rfl, rfl, rfl, rfl, fun w hw => ?_⟩
  cases hd : decode w with
  | error e => exact ⟨e, rfl⟩
  | ok i =>
    obtain ⟨hwf, rfl⟩ := wellFormed_and_encode_of_decode hd
    exact absurd (encode_mem_legalWords hwf) hw

/-! ### The illegal words -/

/-- A word is illegal exactly if its fields are of one of the four kinds of R59. -/
theorem illegalFields_iff_decode_error (w : Word) :
    (fieldRsv w ≠ 0 ∨ 4 ≤ (fieldOp w).toNat ∨ ((fieldOp w).toNat ∈ [0, 1, 3] ∧ fieldNb w ≠ 0) ∨
      ((fieldOp w).toNat = 2 ∧ (fieldNb w).toNat ∈ [5, 6, 7])) ↔ ∃ e, decode w = .error e := by
  have hlt := (fieldNb w).isLt
  rcases decode_cases w with ⟨hr, e⟩ | ⟨_, ho, e⟩ | ⟨_, ho, ho2, hn, e⟩ | ⟨_, ho, hn, e⟩ | ⟨hr, ho, hn, e⟩ |
    ⟨hr, ho, hn, e⟩ | ⟨hr, ho, hn, e⟩ | ⟨hr, ho, hn, e⟩
  · exact iff_of_true (.inl hr) ⟨_, e⟩
  · exact iff_of_true (.inr (.inl ho)) ⟨_, e⟩
  · have hop : (fieldOp w).toNat ∈ [0, 1, 3] := by simp; omega
    exact iff_of_true (.inr (.inr (.inl ⟨hop, hn⟩))) ⟨_, e⟩
  · have hnb : (fieldNb w).toNat ∈ [5, 6, 7] := by simp; omega
    exact iff_of_true (.inr (.inr (.inr ⟨congrArg BitVec.toNat ho, hnb⟩))) ⟨_, e⟩
  · simp [hr, ho, hn, e]
  · simp [hr, ho, hn, e]
  · have hnb : (fieldNb w).toNat ∉ [5, 6, 7] := by simp; omega
    simp [hr, ho, hnb, e]
  · simp [hr, ho, hn, e]

end Sys2Proof

namespace Sys2Proof.Machine

/-- A CMD write of an illegal word records ILLEGAL_CMD, whatever the PHASE, and answers OK (R114). -/
theorem step_of_decode_error {s : State} {w : Word} {e : IllegalWord} {rest : List PortEvent}
    (h : s.pending = .write 0x00 .word w :: rest) (hd : decode w = .error e) :
    step s = .next (respond .ok (raiseCmdError .illegalCmd (withPending rest s))) := by
  rw [serve_command h, execute_error hd, thenRespond_next]

/-- Settles O3: the kinds by the decoder's cases, the rejection by `step_of_decode_error`. -/
theorem illegalWordsAreRejected : Obligations.IllegalWordsAreRejected := by
  intro w
  refine ⟨illegalFields_iff_decode_error w, ?_⟩
  rintro s rest ⟨e, hd⟩ h
  exact ⟨step_of_decode_error h hd, statusWord_errCode _⟩

/-! ### No-ops -/

/-- In FINAL with no error recorded every command but NOP shows: INIT leaves FINAL, and a rejection shows in ERRCODE. -/
theorem decode_eq_nop_of_execute_eq {w : Word} {s : State} (hf : s.phase = .final) (he : s.errCode = .none)
    (h : execute w s = .next s) : decode w = .ok .nop := by
  have of_effect {t : State} (hx : execute w s = .next t) : t = s := Host.Outcome.next.inj (hx.symm.trans h)
  rcases execute_cases w s with ⟨_, hx⟩ | ⟨_, _, hx⟩ | ⟨hd, _⟩ | ⟨_, hx⟩ | ⟨hne, _⟩ | ⟨hne, _⟩
  · cases he.symm.trans (congrArg State.errCode (of_effect hx)).symm
  · cases he.symm.trans (congrArg State.errCode (of_effect hx)).symm
  · exact hd
  · cases hf.symm.trans (congrArg State.phase (of_effect hx)).symm
  · exact absurd hf hne
  · exact absurd hf hne

/-- UPDATE 0 absorbs no byte and counts none: it enters ACCUM (R104). -/
theorem updateEffect_zero (s : State) : updateEffect 0 s = { s with phase := .accum } := by
  have hcnt : s.bitCnt + BitVec.ofNat 64 (8 * 0) = s.bitCnt := BitVec.add_zero _
  calc updateEffect 0 s
    _ = { s with bitCnt := s.bitCnt + BitVec.ofNat 64 (8 * 0), phase := .accum } := rfl
    _ = { s with phase := .accum } := by rw [hcnt]

/-- Settles O19: `decode_eq_nop_of_execute_eq` in one state in FINAL; UPDATE 0 by PHASE. -/
theorem nopIsTheOnlyHint : Obligations.NopIsTheOnlyHint := by
  refine ⟨fun w => ⟨fun h => ?_, ?_⟩, rfl, fun s => ?_⟩
  · have hd := decode_eq_nop_of_execute_eq (s := { State.reset with phase := .final }) rfl rfl (h _)
    exact (wellFormed_and_encode_of_decode hd).2.symm
  · rintro rfl s
    exact execute_ok (i := .nop) rfl s
  · by_cases hf : s.phase = .final
    · rw [exec_update_of_final (by decide) hf, if_pos hf]
      rfl
    · rw [exec_update_of_ne (by decide) hf, if_neg hf, updateEffect_zero]

/-! ### The named offsets -/

theorem regOffset_digest_toNat : ∀ k : Fin 8, (BitVec.ofNat 6 (0x20 + 4 * k.val)).toNat = 0x20 + 4 * k.val := by decide

/-- The window has a named register at the offset its name resolves to (R63). -/
theorem regAt_regOffset {r : PortReg} {off : Offset} (h : regOffset r = some off) :
    regAt off = r ∧ off.toNat % 4 = 0 := by
  cases r with
  | cmd => cases h; decide
  | status => cases h; decide
  | dataIn => cases h; decide
  | bitCntLo => cases h; decide
  | bitCntHi => cases h; decide
  | digest k => cases h; exact ⟨regAt_digestOffset k, digestOffset_aligned k⟩
  | reserved => cases h

/-- The aligned offsets that no name resolves to (R30). -/
theorem regAt_reserved : ∀ off : Offset, off.toNat % 4 = 0 → regAt off = .reserved → off ∈ [0x0C, 0x18, 0x1C] := by
  decide

/-- Settles O16: by the window's table. -/
theorem namedOffsetsSelectTheirRegisters : Obligations.NamedOffsetsSelectTheirRegisters :=
  ⟨rfl, rfl, rfl, rfl, rfl, fun k => ⟨_, rfl, regOffset_digest_toNat k⟩, rfl, fun _ _ => regAt_regOffset, regAt_reserved⟩

end Sys2Proof.Machine

/-! The word operations, bit by bit (spec 40_wordops.md R64 to R68, R71). -/

namespace Sys2Proof.Machine

/-! ### ROTL -/

/-- Bit `i` of ROTL comes from bit `i - n` modulo 32 (R64). -/
theorem getLsbD_rotl (x : Word) (n : Nat) {i : Nat} (hi : i < 32) :
    (rotl x n).getLsbD i = x.getLsbD ((i + 32 - n % 32) % 32) := by
  rw [rotl_eq_rotateLeft, BitVec.getLsbD_rotateLeft]
  by_cases h : i < n % 32
  · have hidx : (i + 32 - n % 32) % 32 = 32 - n % 32 + i := by omega
    simp [h, hidx]
  · have hidx : (i + 32 - n % 32) % 32 = i - n % 32 := by omega
    simp [h, hi, hidx]

theorem rotl_mod (x : Word) (n : Nat) : rotl x (n % 32) = rotl x n := by
  simp only [rotl_eq_rotateLeft, BitVec.rotateLeft_mod_eq_rotateLeft]

@[simp] theorem rotl_zero (x : Word) : rotl x 0 = x := rfl

/-- Settles O36: bit by bit by Lean's own rotation. -/
theorem rotlMovesBits : Obligations.RotlMovesBits := by
  intro x n
  exact ⟨fun _ hi => getLsbD_rotl x n hi, (rotl_mod x n).symm, rotl_zero x⟩

/-! ### FF and GG -/

theorem ff_of_lt (x y z : Word) {j : Nat} (h : j < 16) : ff x y z j = x ^^^ y ^^^ z := if_pos h

theorem ff_of_ge (x y z : Word) {j : Nat} (h : 16 ≤ j) : ff x y z j = (x &&& y) ||| (x &&& z) ||| (y &&& z) :=
  if_neg (Nat.not_lt.2 h)

theorem gg_of_lt (x y z : Word) {j : Nat} (h : j < 16) : gg x y z j = x ^^^ y ^^^ z := if_pos h

theorem gg_of_ge (x y z : Word) {j : Nat} (h : 16 ≤ j) : gg x y z j = (x &&& y) ||| (~~~x &&& z) :=
  if_neg (Nat.not_lt.2 h)

/-- The or of the pairwise ands is the majority of three bits. -/
theorem or_pairwise_and_eq_majority (a b c : Bool) :
    (a && b || a && c || b && c) = decide (2 ≤ a.toNat + b.toNat + c.toNat) := by
  revert a b c
  decide

/-- From round 16 on a bit of FF is the majority of the three bits (R65). -/
theorem getLsbD_ff_of_ge (x y z : Word) {j : Nat} (h : 16 ≤ j) (i : Nat) :
    (ff x y z j).getLsbD i =
      decide (2 ≤ (x.getLsbD i).toNat + (y.getLsbD i).toNat + (z.getLsbD i).toNat) := by
  rw [ff_of_ge x y z h, ← or_pairwise_and_eq_majority]
  simp only [BitVec.getLsbD_or, BitVec.getLsbD_and]

/-- From round 16 on a bit of GG is chosen by the bit of `x` (R66). -/
theorem getLsbD_gg_of_ge (x y z : Word) {j i : Nat} (h : 16 ≤ j) (hi : i < 32) :
    (gg x y z j).getLsbD i = if x.getLsbD i then y.getLsbD i else z.getLsbD i := by
  have hbit : (gg x y z j).getLsbD i = (x.getLsbD i && y.getLsbD i || !x.getLsbD i && z.getLsbD i) := by
    simp only [gg_of_ge x y z h, BitVec.getLsbD_or, BitVec.getLsbD_and, BitVec.getLsbD_not, hi, decide_true, Bool.true_and]
  rw [hbit]
  cases x.getLsbD i <;> simp

/-- Settles O37: by the two kinds of round. -/
theorem booleanMixes : Obligations.BooleanMixes := by
  intro x y z j i hi
  refine ⟨fun h => ⟨?_, (gg_of_lt x y z h).trans (ff_of_lt x y z h).symm⟩,
    fun h => ⟨getLsbD_ff_of_ge x y z h i, getLsbD_gg_of_ge x y z h hi⟩⟩
  rw [ff_of_lt x y z h, BitVec.getLsbD_xor, BitVec.getLsbD_xor]

/-! ### P0 and P1 -/

/-- A bit of P0: a left rotation by 9 or 17 is one to the right by 23 or 15 (R67). -/
theorem getLsbD_p0 (x : Word) {i : Nat} (hi : i < 32) :
    (p0 x).getLsbD i = (x.getLsbD i ^^ x.getLsbD ((i + 23) % 32) ^^ x.getLsbD ((i + 15) % 32)) := by
  rw [p0, BitVec.getLsbD_xor, BitVec.getLsbD_xor, getLsbD_rotl x 9 hi, getLsbD_rotl x 17 hi]
  rfl

/-- A bit of P1: a left rotation by 15 or 23 is one to the right by 17 or 9 (R68). -/
theorem getLsbD_p1 (x : Word) {i : Nat} (hi : i < 32) :
    (p1 x).getLsbD i = (x.getLsbD i ^^ x.getLsbD ((i + 17) % 32) ^^ x.getLsbD ((i + 9) % 32)) := by
  rw [p1, BitVec.getLsbD_xor, BitVec.getLsbD_xor, getLsbD_rotl x 15 hi, getLsbD_rotl x 23 hi]
  rfl

/-- Settles O38: the bits by those of ROTL; the corner cases are four fixed words. -/
theorem permutations : Obligations.Permutations :=
  ⟨fun x _ hi => ⟨getLsbD_p0 x hi, getLsbD_p1 x hi⟩, by decide, by decide, by decide, by decide⟩

/-! ### TROT -/

theorem trot_eq_rotateLeft (j : Nat) : trot j = (roundConst j).rotateLeft (j % 32) := rotl_eq_rotateLeft _ _

/-- Round `j + 32` rotates its constant by as much as round `j` (R71). -/
theorem trot_add_32 (j : Nat) : trot (j + 32) = (roundConst (j + 32)).rotateLeft (j % 32) := by
  rw [trot_eq_rotateLeft, Nat.add_mod_right]

/-- Settles O39: rounds `j` and `j + 32` share the amount `j % 32`. -/
theorem roundConstantsRotated : Obligations.RoundConstantsRotated :=
  ⟨fun j _ => trot_eq_rotateLeft j, rotl_zero _, rotl_zero _, fun j _ => ⟨j % 32, trot_eq_rotateLeft j, trot_add_32 j⟩⟩

end Sys2Proof.Machine

/-! The message schedule (spec 42_message_schedule.md R83 to R85). -/

namespace Sys2Proof.Machine

@[simp] theorem expandW_length (b : Block) : (expandW b).length = 68 := by
  rw [expandW, extendWords_length, loadWords_length]

@[simp] theorem expandW'_length (ws : List Word) : (expandW' ws).length = 64 := by
  rw [expandW', List.length_map, List.length_range]

/-- W[0..15] are the block's words (R83). -/
theorem expandW_getD_of_lt {i : Nat} (hi : i < 16) (b : Block) : (expandW b).getD i 0 = (loadWords b).getD i 0 :=
  extendWords_getD_of_lt (by rwa [loadWords_length])

/-- The next word may be read off the finished list: the five words it comes from stay as they are. -/
theorem nextWord_eq_of_extendWords {ws : List Word} (h : 0 < ws.length) (n : Nat) :
    let W (k : Nat) := (extendWords n ws).getD k 0
    nextWord ws =
      p1 (W (ws.length - 16) ^^^ W (ws.length - 9) ^^^ rotl (W (ws.length - 3)) 15) ^^^
        rotl (W (ws.length - 13)) 7 ^^^ W (ws.length - 6) := by
  have stays (d : Nat) (hd : 0 < d) : (extendWords n ws).getD (ws.length - d) 0 = ws.getD (ws.length - d) 0 :=
    extendWords_getD_of_lt (Nat.sub_lt h hd)
  intro W
  simp only [W, stays, Nat.zero_lt_succ]
  rfl

/-- W[16..67] follow the recurrence (R84): W is cut at `i`, and W[i] is the first word after the cut. -/
theorem expandW_getD_of_ge {i : Nat} (hge : 16 ≤ i) (hlt : i < 68) (b : Block) :
    let W (k : Nat) := (expandW b).getD k 0
    W i = p1 (W (i - 16) ^^^ W (i - 9) ^^^ rotl (W (i - 3)) 15) ^^^ rotl (W (i - 13)) 7 ^^^ W (i - 6) := by
  have hlen : (extendWords (i - 16) (loadWords b)).length = i := by
    rw [extendWords_length, loadWords_length, Nat.add_sub_cancel' hge]
  have hcut : expandW b = extendWords (68 - i) (extendWords (i - 16) (loadWords b)) := by
    rw [← extendWords_add, expandW, show i - 16 + (68 - i) = 52 by omega]
  have hnext := extendWords_getD_next (ws := extendWords (i - 16) (loadWords b)) (Nat.sub_pos_of_lt hlt)
  rw [nextWord_eq_of_extendWords (by omega) (68 - i), hlen, ← hcut] at hnext
  exact hnext

/-- W′[j] is the xor of two words of W (R85). -/
theorem expandW'_getD {j : Nat} (hj : j < 64) (ws : List Word) :
    (expandW' ws).getD j 0 = ws.getD j 0 ^^^ ws.getD (j + 4) 0 := by
  simp [expandW', hj]

/-- Settles O44: clause by clause, W[i] by whether the block or the recurrence gives it. -/
theorem expansionRecurrence : Obligations.ExpansionRecurrence := fun b =>
  ⟨expandW_length b, expandW'_length _, fun _ hi => (expandW_getD_of_lt hi b).trans (loadWords_getD hi b),
    fun _ hge hlt => expandW_getD_of_ge hge hlt b, fun _ hj => expandW'_getD hj _⟩

end Sys2Proof.Machine

/-! The compression function (spec 43_compression.md R88 to R91). -/

namespace Sys2Proof.Machine

/-- ROUND by Lean's own rotation (R89). -/
theorem sm3Round_eq_rotateLeft (j : Nat) (r : Working) (w w' : Word) :
    let ss1 := (r.a.rotateLeft 12 + r.e + trot j).rotateLeft 7
    let ss2 := ss1 ^^^ r.a.rotateLeft 12
    let tt1 := ff r.a r.b r.c j + r.d + ss2 + w'
    let tt2 := gg r.e r.f r.g j + r.h + ss1 + w
    sm3Round j r w w' = ⟨tt1, r.a, r.b.rotateLeft 9, r.c, p0 tt2, r.e, r.f.rotateLeft 19, r.g⟩ := by
  simp only [sm3Round, rotl_eq_rotateLeft]

/-- The round loop is a sequence of registers, each from the one before by ROUND (R90). -/
theorem rounds_eq_sequence (ws ws' : List Word) (r₀ : Working) :
    ∃ r : Nat → Working, r 0 = r₀ ∧ (∀ j < 64, r (j + 1) = sm3Round j (r j) (ws.getD j 0) (ws'.getD j 0)) ∧
      rounds ws ws' r₀ = r 64 :=
  foldl_range_sequence (fun r j => sm3Round j r (ws.getD j 0) (ws'.getD j 0)) r₀ 64

/-- CF is the feed-forward of V and the registers after the rounds (R88, R91). -/
theorem cf_eq_feedForward (v : ChainState) (b : Block) :
    cf v b = feedForward v (rounds (expandW b) (expandW' (expandW b)) (loadWorking v)) := rfl

/-- Settles O46: the round loop is a sequence of registers, and CF feeds its last ones forward. -/
theorem compressionIsSixtyFourRounds : Obligations.CompressionIsSixtyFourRounds := by
  intro v b
  obtain ⟨r, hstart, hround, hlast⟩ := rounds_eq_sequence (expandW b) (expandW' (expandW b)) (loadWorking v)
  refine ⟨r, hstart, fun j hj => (hround j hj).trans (sm3Round_eq_rotateLeft j (r j) _ _), ?_⟩
  rw [cf_eq_feedForward, hlast, feedForward]

end Sys2Proof.Machine

/-! The digest commands (spec 44_digest_commands.md R98, R102 to R104, R110). -/

namespace Sys2Proof.Machine

/-! ### Two runs in step

What a host sees of two states is compared by a relation that every operation of the model keeps. -/

/-- Both outcomes are next states, and `R` relates them. -/
inductive NextRel (R : State → State → Prop) : Result → Result → Prop
  | next {s t : State} (h : R s t) : NextRel R (.next s) (.next t)

theorem NextRel.related {R : State → State → Prop} {s t : State} (h : NextRel R (.next s) (.next t)) : R s t := by
  cases h with
  | next h => exact h

/-- Related states have the same queue, PHASE and draws, and every operation on both relates what it makes of them. -/
structure KeptByOps (R : State → State → Prop) : Prop where
  pending {s t : State} : R s t → t.pending = s.pending
  phase {s t : State} : R s t → t.phase = s.phase
  draws {s t : State} : R s t → t.draws = s.draws
  withPending {s t : State} (es : List PortEvent) : R s t → R (withPending es s) (withPending es t)
  respond {s t : State} (r : Response) : R s t → R (respond r s) (respond r t)
  raiseCmdError {s t : State} (c : ErrCode) : R s t → R (raiseCmdError c s) (raiseCmdError c t)
  writeDataIn {s t : State} (d : Word) : R s t → R (writeDataIn d s) (writeDataIn d t)
  startDigest {s t : State} : R s t → R (startDigest s) (startDigest t)
  updateEffect {s t : State} (nb : BitVec 3) : R s t → R (updateEffect nb s) (updateEffect nb t)
  publish {s t : State} : R s t → R (publish s) (publish t)
  applyReset {s t : State} : R s t → R (applyReset s) (applyReset t)
  drawFree {s t : State} : R s t → R (drawFree s) (drawFree t)

namespace KeptByOps

variable {R : State → State → Prop} (hR : KeptByOps R) {s t : State}

include hR

theorem unlessFinal {effect : State → State} (he : R (effect s) (effect t)) (h : R s t) :
    NextRel R (unlessFinal effect s) (unlessFinal effect t) := by
  by_cases hf : s.phase = .final
  · rw [unlessFinal_of_final _ hf, unlessFinal_of_final _ ((hR.phase h).trans hf)]
    exact .next (hR.raiseCmdError _ h)
  · rw [unlessFinal_of_ne _ hf, unlessFinal_of_ne _ (hR.phase h ▸ hf)]
    exact .next he

theorem exec (i : Instr) (h : R s t) : NextRel R (exec i s) (exec i t) := by
  cases i with
  | nop => exact .next h
  | init => exact .next (hR.startDigest h)
  | update nb =>
    by_cases hn : nb.toNat ≤ 4
    · have hx (u : State) : Machine.exec (.update nb) u = Machine.unlessFinal (Machine.updateEffect nb) u := if_pos hn
      rw [hx, hx]
      exact hR.unlessFinal (hR.updateEffect nb h) h
    · rw [exec_update_of_lt hn, exec_update_of_lt hn]
      exact .next (hR.raiseCmdError _ h)
  | finalize => exact hR.unlessFinal (hR.publish h) h

theorem execute (w : Word) (h : R s t) : NextRel R (execute w s) (execute w t) := by
  cases hd : decode w with
  | error e =>
    rw [execute_error hd, execute_error hd]
    exact .next (hR.raiseCmdError _ h)
  | ok i =>
    rw [execute_ok hd, execute_ok hd]
    exact hR.exec i h

theorem thenRespond (r : Response) {o p : Result} (h : NextRel R o p) :
    NextRel R (thenRespond r o) (thenRespond r p) := by
  cases h with
  | next h => exact .next (hR.respond r h)

theorem writeReg (r : PortReg) (d : Word) (h : R s t) : R (writeReg r d s) (writeReg r d t) := by
  by_cases hr : r = .dataIn
  · subst hr
    exact hR.writeDataIn d h
  · rwa [writeReg_ignored hr, writeReg_ignored hr]

theorem serveAlignedWrite (r : PortReg) (d : Word) (h : R s t) :
    NextRel R (serveAlignedWrite r d s) (serveAlignedWrite r d t) := by
  by_cases hr : r = .cmd
  · subst hr
    exact hR.thenRespond .ok (hR.execute d h)
  · rw [serveAlignedWrite_of_ne_cmd hr, serveAlignedWrite_of_ne_cmd hr]
    exact .next (hR.respond _ (hR.writeReg r d h))

theorem serveWrite (off : Offset) (size : AccessSize) (d : Word) (h : R s t) :
    NextRel R (serveWrite off size d s) (serveWrite off size d t) := by
  unfold Machine.serveWrite
  cases accessCheck off size with
  | error f => exact .next (hR.respond _ h)
  | ok u => exact hR.serveAlignedWrite (regAt off) d h

theorem serveRead (off : Offset) (size : AccessSize) (hread : ∀ r, readReg r s = readReg r t) (h : R s t) :
    NextRel R (serveRead off size s) (serveRead off size t) := by
  unfold Machine.serveRead
  cases accessCheck off size with
  | error f => exact .next (hR.respond _ h)
  | ok u =>
    simp only [hread]
    exact .next (hR.respond _ h)

theorem abandonCommand (h : R s t) : R (abandonCommand s) (abandonCommand t) := by
  have hreset := hR.drawFree (hR.applyReset h)
  unfold Machine.abandonCommand
  rw [hR.draws h]
  cases Config.abandonedResponse s.draws with
  | none => exact hreset
  | some r => exact hR.respond r hreset

/-- A step keeps the relation of two states if every register reads alike in both. -/
theorem step (hread : ∀ r, readReg r s = readReg r t) (h : R s t) : NextRel R (step s) (step t) := by
  have hrest (rest : List PortEvent) := hR.withPending rest h
  unfold Machine.step serve
  rw [hR.pending h]
  cases s.pending with
  | nil => exact .next h
  | cons e rest =>
    cases e with
    | read off size =>
      exact hR.serveRead off size (fun r => by rw [readReg_withPending, readReg_withPending, hread]) (hrest rest)
    | write off size d => exact hR.serveWrite off size d (hrest rest)
    | reset => exact .next (hR.applyReset (hrest rest))
    | resetDuringCommand w => exact .next (hR.abandonCommand (hrest rest))

end KeptByOps

/-! ### V and BUF are not seen before FINAL -/

/-- Outside FINAL DIGESTk reads 0 (R29). -/
theorem readReg_digest_of_ne {s : State} (h : s.phase ≠ .final) (k : Fin 8) : readReg (.digest k) s = 0 := if_neg h

theorem sameUpToHashState_iff {s t : State} : SameUpToHashState s t ↔ ∃ v b, t = { s with v := v, buf := b } := by
  constructor
  · intro h
    exact ⟨_, _, h⟩
  · rintro ⟨v, b, rfl⟩
    rfl

/-- Where a byte goes is decided by BUFLEN, which both states share (R101). -/
theorem SameUpToHashState.absorbByte {s t : State} (h : SameUpToHashState s t) (b : Byte) :
    SameUpToHashState (absorbByte s b) (absorbByte t b) := by
  obtain ⟨v, buf, rfl⟩ := sameUpToHashState_iff.1 h
  by_cases hfull : s.bufLen = 63
  · rw [absorbByte_of_eq b hfull, absorbByte_of_eq (s := { s with v := v, buf := buf }) b hfull]
    rfl
  · rw [absorbByte_of_ne b hfull, absorbByte_of_ne (s := { s with v := v, buf := buf }) b hfull]
    rfl

theorem SameUpToHashState.absorbBytes {s t : State} (h : SameUpToHashState s t) (bs : List Byte) :
    SameUpToHashState (absorbBytes bs s) (absorbBytes bs t) := by
  induction bs generalizing s t with
  | nil => exact h
  | cons b bs ih => exact ih (h.absorbByte b)

theorem SameUpToHashState.countBytes {s t : State} (h : SameUpToHashState s t) (n : Nat) :
    SameUpToHashState (countBytes n s) (countBytes n t) := by
  obtain ⟨v, buf, rfl⟩ := sameUpToHashState_iff.1 h
  rfl

theorem SameUpToHashState.updateEffect {s t : State} (h : SameUpToHashState s t) (nb : BitVec 3) :
    SameUpToHashState (updateEffect nb s) (updateEffect nb t) := by
  have hdata : t.dataIn = s.dataIn := by rw [h]
  unfold Machine.updateEffect
  rw [hdata]
  exact (h.absorbBytes _).countBytes _

/-- No operation lets V or BUF into another field. -/
theorem keptByOps_sameUpToHashState : KeptByOps SameUpToHashState where
  pending h := by rw [h]
  phase h := by rw [h]
  draws h := by rw [h]
  withPending es h := by rw [h]; rfl
  respond r h := by rw [h]; rfl
  raiseCmdError c h := by rw [h]; rfl
  writeDataIn d h := by rw [h]; rfl
  startDigest h := by rw [h]; rfl
  updateEffect nb h := h.updateEffect nb
  publish h := by rw [h]; rfl
  applyReset h := by rw [h]; rfl
  drawFree h := by rw [h]; rfl

/-- Outside FINAL no register shows V or BUF (R110). -/
theorem SameUpToHashState.readReg_eq {s t : State} (h : SameUpToHashState s t) (hf : s.phase ≠ .final) (r : PortReg) :
    readReg r s = readReg r t := by
  obtain ⟨v, buf, rfl⟩ := sameUpToHashState_iff.1 h
  cases r with
  | digest k => rw [readReg_digest_of_ne hf, readReg_digest_of_ne (s := { s with v := v, buf := buf }) hf]
  | cmd => rfl
  | status => rfl
  | dataIn => rfl
  | bitCntLo => rfl
  | bitCntHi => rfl
  | reserved => rfl

theorem StaysOutOfFinal.phase_ne {k : Nat} {s : State} (h : StaysOutOfFinal k s) : s.phase ≠ .final := by
  cases k with
  | zero => exact h
  | succ k => exact h.1

/-- States that differ in V and BUF alone still do after any run that stays out of FINAL (R110). -/
theorem SameUpToHashState.stepN {k : Nat} {s t s' t' : State} (h : SameUpToHashState s t) (hout : StaysOutOfFinal k s)
    (hs : stepN k s = .next s') (ht : stepN k t = .next t') : SameUpToHashState s' t' := by
  induction k generalizing s t with
  | zero =>
    cases hs
    cases ht
    exact h
  | succ k ih =>
    obtain ⟨s₁, hs₁, hs⟩ := stepN_succ_inv hs
    obtain ⟨t₁, ht₁, ht⟩ := stepN_succ_inv ht
    have hstep := keptByOps_sameUpToHashState.step (h.readReg_eq hout.phase_ne) h
    rw [hs₁, ht₁] at hstep
    exact ih hstep.related (hout.2 s₁ hs₁) hs ht

/-- Settles O58: every step outside FINAL keeps the two states alike, by `keptByOps_sameUpToHashState`; the responses
are among what is alike. -/
theorem noPartialResults : Obligations.NoPartialResults := by
  refine ⟨fun k s t s' t' h hout hs ht => ?_, fun s k hf => readReg_digest_of_ne hf k⟩
  have hend := h.stepN hout hs ht
  exact ⟨hend, by rw [hend]⟩

/-! ### CMD writes -/

/-- A word that is no command the PHASE accepts changes ERRCODE alone (R99, R100). -/
theorem CommandEffect.eq_raiseCmdError {s u : State} {d : Except IllegalWord Instr} (h : CommandEffect s d u)
    (hrej : ∀ i, d = .ok i → ¬ acceptedIn i s.phase) : ∃ code, code ≠ .none ∧ u = raiseCmdError code s := by
  cases h with
  | illegal => exact ⟨.illegalCmd, nofun, rfl⟩
  | nop => exact absurd trivial (hrej _ rfl)
  | init => exact absurd trivial (hrej _ rfl)
  | update hf => exact absurd hf (hrej _ rfl)
  | updateRejected => exact ⟨.invalidState, nofun, rfl⟩
  | finalize hf => exact absurd hf (hrej _ rfl)
  | finalizeRejected => exact ⟨.invalidState, nofun, rfl⟩

/-- Settles O6: the step is the execution and the response; a rejection by the effect of the word. -/
theorem commandWriteAlwaysGetsOk : Obligations.CommandWriteAlwaysGetsOk := by
  intro s w rest hp
  obtain ⟨t, ht, -, hresp, -⟩ := execute_next w (withPending rest s)
  rw [withPending_responses] at hresp
  refine ⟨t, ht, ?_, (commandEffect_of_execute ht).eq_raiseCmdError⟩
  rw [serve_command hp, ht, thenRespond_next, ← hresp]
  rfl

/-! ### NOP and INIT -/

/-- Settles O18: a word that decodes to NOP is NOP's encoding. -/
theorem nopChangesNothing : Obligations.NopChangesNothing := by
  refine ⟨fun _ => rfl, fun w => ⟨fun h => ?_, ?_⟩⟩
  · exact (wellFormed_and_encode_of_decode h).2.symm
  · rintro rfl
    rfl

theorem exec_init (s : State) : exec .init s = .next (startDigest s) := rfl

/-- Starting a digest again changes nothing (R103). -/
theorem startDigest_startDigest (s : State) : startDigest (startDigest s) = startDigest s := rfl

/-- With a new digest STATUS reads 0 (R103). -/
theorem statusWord_startDigest (s : State) : statusWord (startDigest s) = 0 := by
  apply BitVec.eq_of_toNat_eq
  rw [statusWord_toNat]
  rfl

/-- Settles O20: INIT is `startDigest`, field by field; the digest registers read 0 since PHASE is FRESH. -/
theorem initStartsNewDigest : Obligations.InitStartsNewDigest := by
  refine ⟨rfl, fun s => ⟨startDigest s, exec_init s, startDigest_v s, startDigest_bufLen s, startDigest_bitCnt s,
    startDigest_phase s, startDigest_errCode s, startDigest_dataIn s, startDigest_pending s, startDigest_responses s,
    startDigest_draws s, ?_, statusWord_startDigest s, rfl, ?_⟩⟩
  · have hf : (startDigest s).phase ≠ .final := nofun
    exact readReg_digest_of_ne hf
  · rw [exec_init, startDigest_startDigest]

/-! ### UPDATE -/

@[simp] theorem updateEffect_responses (nb : BitVec 3) (s : State) : (updateEffect nb s).responses = s.responses := by
  simp [updateEffect]

@[simp] theorem updateEffect_draws (nb : BitVec 3) (s : State) : (updateEffect nb s).draws = s.draws := by
  simp [updateEffect]

/-- UPDATE that leaves the buffer short of 64 bytes appends its bytes to the buffer (R104). -/
theorem bufTail_updateEffect_of_lt {nb : BitVec 3} {s : State} (h : s.bufLen.toNat + nb.toNat < 64) :
    bufTail (updateEffect nb s) = bufTail s ++ messageBytes nb s.dataIn := by
  have ht := ((accumulates_self s).updateEffect nb).2
  rwa [List.length_append, bufTail_length, messageBytes_length, Nat.div_eq_of_lt h] at ht

/-- UPDATE that brings the buffer to 64 bytes keeps what follows them (R104). -/
theorem bufTail_updateEffect_of_ge {nb : BitVec 3} {s : State} (h : 64 ≤ s.bufLen.toNat + nb.toNat) :
    bufTail (updateEffect nb s) = (bufTail s ++ messageBytes nb s.dataIn).drop 64 := by
  have ht := ((accumulates_self s).updateEffect nb).2
  have hlt := s.bufLen.isLt
  have hn := nb.isLt
  rwa [List.length_append, bufTail_length, messageBytes_length,
    show (s.bufLen.toNat + nb.toNat) / 64 = 1 by omega] at ht

/-- `0x02 | n << 4` decodes to UPDATE n (R104). -/
theorem decode_updateWord : ∀ {nb : BitVec 3}, nb.toNat ≤ 4 →
    decode (0x00000002 ||| (nb.setWidth 32 <<< 4)) = .ok (.update nb) := by decide

/-- UPDATE's opcode with a byte count above 4 or a reserved bit set is no command (R59). -/
theorem decode_error_of_update_fields {w : Word} (ho : fieldOp w = 2) (h : 4 < (fieldNb w).toNat ∨ fieldRsv w ≠ 0) :
    ∃ e, decode w = .error e := by
  apply (illegalFields_iff_decode_error w).1
  rcases h with hn | hr
  · have hlt := (fieldNb w).isLt
    have hnb : (fieldNb w).toNat ∈ [5, 6, 7] := by simp; omega
    exact .inr (.inr (.inr ⟨congrArg BitVec.toNat ho, hnb⟩))
  · exact .inl hr

/-- Settles O21: the accepted UPDATE by whether the buffer fills, the illegal words by their fields. -/
theorem updateAbsorbsBytes : Obligations.UpdateAbsorbsBytes := by
  intro s nb
  refine ⟨fun hn hf => ⟨updateEffect nb s, exec_update_of_ne hn hf, ⟨fun hlt => ?_, fun hge => ?_⟩, ?_⟩,
    fun hn hf => exec_update_of_final hn hf, decode_updateWord, fun w ho h => ?_⟩
  · have hlen : (updateEffect nb s).bufLen.toNat = s.bufLen.toNat + nb.toNat := by
      rw [updateEffect_bufLen, Nat.mod_eq_of_lt hlt]
    exact ⟨updateEffect_v_of_lt hlt, hlen, bufTail_updateEffect_of_lt hlt⟩
  · have hlen : (updateEffect nb s).bufLen.toNat = s.bufLen.toNat + nb.toNat - 64 := by
      have := s.bufLen.isLt
      rw [updateEffect_bufLen]
      omega
    exact ⟨updateEffect_v_of_ge hge, hlen, bufTail_updateEffect_of_ge hge⟩
  · simp
  · obtain ⟨e, he⟩ := decode_error_of_update_fields ho h
    exact execute_error he s

end Sys2Proof.Machine

/-! The errors (spec 60_exceptions.md R115, R117). -/

namespace Sys2Proof.Machine

/-- In FINAL a legal UPDATE or FINALIZE is rejected with INVALID_STATE (R115). -/
theorem exec_of_final {s : State} {i : Instr} (hf : s.phase = .final) (hwf : i.wellFormed = true)
    (hi : i = .finalize ∨ ∃ nb, i = .update nb) : exec i s = .next (raiseCmdError .invalidState s) := by
  rcases hi with rfl | ⟨nb, rfl⟩
  · exact exec_finalize_of_final hf
  · exact exec_update_of_final (of_decide_eq_true hwf) hf

/-- Settles O24: the rejection keeps PHASE and V, so DIGESTk still reads V[k]. -/
theorem invalidStateLeavesDigestReadable : Obligations.InvalidStateLeavesDigestReadable := by
  intro s t i hf hwf hi ht
  obtain rfl : raiseCmdError .invalidState s = t := Host.Outcome.next.inj ((exec_of_final hf hwf hi).symm.trans ht)
  exact ⟨rfl, statusWord_errCode _, readReg_digest_of_final (s := raiseCmdError .invalidState s) hf⟩

/-- A CMD write of a legal UPDATE or FINALIZE in FINAL records INVALID_STATE and answers OK (R115). -/
theorem step_of_invalid_state {s : State} {w : Word} {i : Instr} {rest : List PortEvent}
    (h : s.pending = .write 0x00 .word w :: rest) (hf : s.phase = .final) (hd : decode w = .ok i)
    (hi : i = .finalize ∨ ∃ nb, i = .update nb) :
    step s = .next (respond .ok (raiseCmdError .invalidState (withPending rest s))) := by
  have hwf : i.wellFormed = true := (wellFormed_and_encode_of_decode hd).1
  rw [serve_command h, execute_ok hd, exec_of_final (s := withPending rest s) hf hwf hi, thenRespond_next]

/-- Settles O26: a lemma for each check that fails first: the access, the decoder, the phase. -/
theorem errorPriority : Obligations.ErrorPriority := by
  refine fun s w rest => ⟨fun _ _ hbad h => step_of_bad_access hbad h, ?_, ?_⟩
  · rintro h ⟨e, hd⟩
    exact step_of_decode_error h hd
  · rintro h hf (hd | ⟨nb, hd⟩)
    · exact step_of_invalid_state h hf hd (.inl rfl)
    · exact step_of_invalid_state h hf hd (.inr ⟨nb, rfl⟩)

end Sys2Proof.Machine

/-! Reset (spec 70_reset_and_hazards.md R128). -/

namespace Sys2Proof.Machine

theorem serve_reset {s : State} {rest : List PortEvent} (h : s.pending = .reset :: rest) :
    step s = .next (applyReset (withPending rest s)) := by
  unfold step serve; rw [h]

/-- A core right after reset is reset already: asserting reset again changes nothing. -/
theorem applyReset_reset : applyReset State.reset = State.reset := rfl

/-- The values of R128, whatever the state before. -/
theorem applyReset_values (s : State) :
    (applyReset s).v = iv ∧ (applyReset s).bufLen = 0 ∧ (applyReset s).bitCnt = 0 ∧ (applyReset s).phase = .fresh ∧
    (applyReset s).errCode = .none ∧ (applyReset s).dataIn = 0 :=
  ⟨applyReset_v s, applyReset_bufLen s, applyReset_bitCnt s, applyReset_phase s, applyReset_errCode s,
    applyReset_dataIn s⟩

/-- Settles O33: the step that serves a reset is `applyReset`, and the reset state is its own reset. -/
theorem resetValues : Obligations.ResetValues := by
  refine ⟨?_, fun s rest h => ⟨_, serve_reset h, applyReset_values _⟩⟩
  rw [← applyReset_reset]
  exact applyReset_values State.reset

end Sys2Proof.Machine

/-! The encoder as the decoder's inverse, and the command words on the port (spec 30_encoding.md R55 to R58). -/

namespace Sys2Proof

/-- The word of a well-formed command decodes to it (R58). -/
theorem decode_encode {i : Instr} (h : i.wellFormed = true) : decode (encode i) = .ok i := by
  cases i with
  | nop => rfl
  | init => rfl
  | update nb =>
    have hn : nb.toNat ≤ 4 := of_decide_eq_true h
    simp [decode, encode, opcode, byteCountField, decodeUpdate, hn]
  | finalize => rfl

/-- Settles O2: one way by the decoder's cases, the other by `decode_encode`. -/
theorem decodeAgreesWithEncode : Obligations.DecodeAgreesWithEncode := by
  refine fun w i => ⟨wellFormed_and_encode_of_decode, ?_⟩
  rintro ⟨hwf, rfl⟩
  exact decode_encode hwf

end Sys2Proof

namespace Sys2Proof.Machine

/-- A well-formed command has the effect of its word. -/
theorem commandEffect_of_exec {i : Instr} {s t : State} (hwf : i.wellFormed = true) (h : exec i s = .next t) :
    CommandEffect s (.ok i) t := by
  rw [← decode_encode hwf]
  exact commandEffect_of_execute ((execute_ok (decode_encode hwf) s).trans h)

/-- A CMD write of a legal word runs its command and answers OK (R98). -/
theorem step_of_decode_ok {s t : State} {w : Word} {i : Instr} {rest : List PortEvent}
    (h : s.pending = .write 0x00 .word w :: rest) (hd : decode w = .ok i) (ht : exec i (withPending rest s) = .next t) :
    step s = .next (respond .ok t) := by
  rw [serve_command h, execute_ok hd, ht, thenRespond_next]

/-- Settles O4. -/
theorem stepRunsDecodedCommand : Obligations.StepRunsDecodedCommand :=
  fun _ _ _ _ _ => step_of_decode_ok

/-- A word of the opcode table that names a command is a legal word. -/
theorem decode_of_decodeTableWord {nbits w : Nat} {i : Instr} (h : decodeTableWord nbits w = some i) :
    decode (tableWord nbits w) = .ok i := by
  unfold decodeTableWord at h
  cases hd : decode (tableWord nbits w) with
  | error e => simp [hd] at h
  | ok j => simpa [hd] using h

/-- Settles O5: the placed word is at the head of the queue, and behind it the state is as before. -/
theorem placedWordRunsNext : Obligations.PlacedWordRunsNext := by
  intro s nbits w i h
  have hd := decode_of_decodeTableWord h
  obtain ⟨t, ht, -⟩ := execute_next (tableWord nbits w) s
  rw [execute_ok hd] at ht
  exact ⟨t, ht, step_of_decode_ok rfl hd ht⟩

end Sys2Proof.Machine

/-! One transaction of the port (spec 20_memory.md R36, R37; 44_digest_commands.md R111; 60_exceptions.md R127). -/

namespace Sys2Proof.Machine

/-- With no event pending the core is idle (R127). -/
theorem step_of_idle {s : State} (h : s.pending = []) : step s = .next s := by
  unfold step serve; rw [h]

theorem serve_resetDuringCommand {s : State} {w : Word} {rest : List PortEvent}
    (h : s.pending = .resetDuringCommand w :: rest) : step s = .next (abandonCommand (withPending rest s)) := by
  unfold step serve; rw [h]

/-- A read is served alone, with one response that a read can have (R36). -/
theorem step_read {s : State} {off : Offset} {size : AccessSize} {rest : List PortEvent}
    (h : s.pending = .read off size :: rest) :
    ∃ r, r.answers (.read off size) = true ∧ step s = .next (respond r (withPending rest s)) := by
  rcases accessCheck_cases off size with ⟨rfl, ho, -⟩ | ⟨hbad, -⟩
  · exact ⟨_, rfl, step_read_aligned h ho⟩
  · exact ⟨.error, rfl, step_of_bad_access (d := 0) hbad (.inl h)⟩

theorem writeReg_pending (r : PortReg) (d : Word) (s : State) : (writeReg r d s).pending = s.pending := by
  cases r <;> rfl

theorem writeReg_responses (r : PortReg) (d : Word) (s : State) : (writeReg r d s).responses = s.responses := by
  cases r <;> rfl

/-- A write is served alone, with one response that a write can have (R36). -/
theorem step_write {s : State} {off : Offset} {size : AccessSize} {d : Word} {rest : List PortEvent}
    (h : s.pending = .write off size d :: rest) :
    ∃ t r, step s = .next t ∧ t.pending = rest ∧ t.responses = r :: s.responses ∧
      r.answers (.write off size d) = true := by
  rcases accessCheck_cases off size with ⟨rfl, ho, -⟩ | ⟨hbad, -⟩
  · by_cases hcmd : regAt off = .cmd
    · obtain rfl := regAt_cmd ho hcmd
      obtain ⟨t, ht, hpend, hresp, -⟩ := execute_next d (withPending rest s)
      refine ⟨respond .ok t, .ok, ?_, hpend, congrArg (Response.ok :: ·) hresp, rfl⟩
      rw [serve_command h, ht, thenRespond_next]
    · exact ⟨_, .ok, step_write_aligned h ho hcmd, writeReg_pending _ _ _,
        congrArg (Response.ok :: ·) (writeReg_responses _ _ _), rfl⟩
  · exact ⟨_, .error, step_of_bad_access hbad (.inr h), rfl, rfl, rfl⟩

/-- A transaction is served alone, with one response of its kind (R36). -/
theorem step_transaction {s : State} {e : PortEvent} {rest : List PortEvent} (he : e.isTransaction = true)
    (h : s.pending = e :: rest) :
    ∃ t r, step s = .next t ∧ t.pending = rest ∧ t.responses = r :: s.responses ∧ r.answers e = true := by
  cases e with
  | read off size =>
    obtain ⟨r, hr, hs⟩ := step_read h
    exact ⟨_, r, hs, rfl, rfl, hr⟩
  | write off size d => exact step_write h
  | reset => cases he
  | resetDuringCommand w => cases he

/-- Settles O7: event by event. -/
theorem stepNeverStops : Obligations.StepNeverStops := by
  refine ⟨fun s => ?_, fun _ => step_of_idle⟩
  cases hp : s.pending with
  | nil => exact ⟨s, step_of_idle hp⟩
  | cons e rest =>
    cases e with
    | read off size =>
      obtain ⟨r, -, hs⟩ := step_read hp
      exact ⟨_, hs⟩
    | write off size d =>
      obtain ⟨t, r, hs, -⟩ := step_write hp
      exact ⟨t, hs⟩
    | reset => exact ⟨_, serve_reset hp⟩
    | resetDuringCommand w => exact ⟨_, serve_resetDuringCommand hp⟩

/-- Settles O8: the response is one of the kinds that answer the transaction. -/
theorem oneResponsePerTransaction : Obligations.OneResponsePerTransaction := by
  refine fun s t rest off size hs => ⟨fun h => ?_, fun d h => ?_⟩
  · obtain ⟨u, r, hu, hpend, hresp, hr⟩ := step_transaction rfl h
    obtain rfl := Host.Outcome.next.inj (hu.symm.trans hs)
    refine ⟨hpend, ?_⟩
    cases r with
    | data w => exact .inr ⟨w, hresp⟩
    | ok => cases hr
    | error => exact .inl hresp
  · obtain ⟨u, r, hu, hpend, hresp, hr⟩ := step_transaction rfl h
    obtain rfl := Host.Outcome.next.inj (hu.symm.trans hs)
    refine ⟨hpend, ?_⟩
    cases r with
    | data w => cases hr
    | ok => exact .inr hresp
    | error => exact .inl hresp

/-- Settles O9: a bad access by `step_of_bad_access`, an aligned one by the register at its offset. -/
theorem readTransactionStep : Obligations.ReadTransactionStep := by
  intro s off size rest h answer
  have aligned {o : Offset} (hs : size = .word) (ho : off = o) (h4 : o.toNat % 4 = 0) :
      answer (.data (readReg (regAt o) s)) := by
    subst hs ho
    exact step_read_aligned h h4
  refine ⟨fun hbad => step_of_bad_access (d := 0) hbad (.inl h), fun hs ho => aligned hs ho rfl,
    fun hs ho => aligned hs ho rfl, fun hs ho => aligned hs ho rfl, fun hs ho => aligned hs ho rfl,
    fun hs ho => aligned hs ho rfl, fun hs ho => ?_, fun k hs ho => ?_⟩
  · simp only [List.mem_cons, List.not_mem_nil, or_false] at ho
    rcases ho with ho | ho | ho <;> exact aligned hs ho rfl
  · have hoff : off = BitVec.ofNat 6 (0x20 + 4 * k.val) :=
      BitVec.eq_of_toNat_eq (ho.trans (regOffset_digest_toNat k).symm)
    have hread := aligned hs hoff (digestOffset_aligned k)
    rwa [regAt_digestOffset] at hread

/-- Settles O10: by the access check and the register at the offset. -/
theorem writeTransactionStep : Obligations.WriteTransactionStep := by
  refine fun s off size d rest h => ⟨fun hbad => step_of_bad_access hbad (.inr h), ?_, ?_, ?_⟩
  · rintro rfl rfl
    obtain ⟨t, ht, hs, -⟩ := commandWriteAlwaysGetsOk s d rest h
    exact ⟨t, ht, hs⟩
  · rintro rfl rfl
    exact step_write_aligned h rfl (by decide)
  · rintro rfl ho hne0 hne8
    exact step_write_ignored h ho (fun hr => hne0 (regAt_cmd ho hr)) (fun hr => hne8 (regAt_dataIn ho hr))

/-- Settles O60: requests and replies are understood as they were sent, and the exchange is the step. -/
theorem busCarriesPortOneToOne : Obligations.BusCarriesPortOneToOne := by
  unfold Obligations.BusCarriesPortOneToOne
  intro p
  refine ⟨fun e e' he he' heq => ?_, fun e r r' hr hr' heq => ?_, fun s e he => ?_⟩
  · have hread := readRequest_sendRequest p he
    rw [heq, readRequest_sendRequest p he'] at hread
    exact (Option.some.inj hread).symm
  · have hread := readReply_sendReply p hr
    rw [heq, readReply_sendReply p hr'] at hread
    exact (Option.some.inj hread).symm
  · obtain ⟨t, r, hs, hpend, hresp, hr⟩ := step_transaction (s := withPending (e :: s.pending) s) he rfl
    exact ⟨t, r, hs, hpend, hresp, hr, busExchange_of_step p he hs hresp, readReply_sendReply p hr⟩

end Sys2Proof.Machine

/-! The padding (spec 41_padding.md R76 to R81). -/

namespace Sys2Proof.Machine

/-- The number of zero bytes is the only one below 64 that ends them at position 56 of a block (R77). -/
theorem eq_zeroCount_iff (n k : Nat) : (k < 64 ∧ (n + 1 + k) % 64 = 56) ↔ k = zeroCount n := by
  obtain ⟨hmod, hlt⟩ := zeroCount_spec n
  omega

theorem pad_length (m : List Byte) : (pad m).length = m.length + 1 + zeroCount m.length + 8 := by
  rw [pad, List.length_append, padSuffix_length]
  omega

/-- Settles O41: the zero bytes end at position 56 of a block, and the length fills it. -/
theorem paddedLengthIsWholeBlocks : Obligations.PaddedLengthIsWholeBlocks := by
  intro m
  obtain ⟨hmod, hlt⟩ := zeroCount_spec m.length
  refine ⟨eq_zeroCount_iff m.length, pad_length m, ?_, ?_⟩
  · rw [pad_length]
    omega
  · rw [pad_length]
    split <;> omega

/-- A tail that leaves room for the length is padded to one block (R80). -/
theorem padTail_of_le {tail : List Byte} (len : BitVec 64) (h : tail.length ≤ 55) :
    padTail tail len = tail ++ [0x80] ++ List.replicate (55 - tail.length) 0 ++ be64bytes len := by
  simp only [padTail, padSuffix, zeroCount_of_le h, List.append_assoc]

/-- A longer tail is padded to two blocks, cut here where the first ends (R80). -/
theorem padTail_of_lt {tail : List Byte} (len : BitVec 64) (h : 55 < tail.length) (h64 : tail.length < 64) :
    padTail tail len =
      (tail ++ [0x80] ++ List.replicate (63 - tail.length) 0) ++ (List.replicate 56 0 ++ be64bytes len) := by
  simp only [padTail, padSuffix, zeroCount_of_lt h h64, List.replicate_add, List.append_assoc]

/-- The first of the two blocks is a whole one. -/
theorem firstPaddedBlock_length {tail : List Byte} (h64 : tail.length < 64) :
    (tail ++ [0x80] ++ List.replicate (63 - tail.length) (0 : Byte)).length = 64 := by
  simp only [List.length_append, List.length_replicate, List.length_singleton]
  omega

/-- Settles O42: by whether the tail leaves room for the length. -/
theorem paddedTailCases : Obligations.PaddedTailCases := by
  refine fun tail len => ⟨fun h => ⟨padTail_of_le len h, ?_⟩, fun h h63 => ?_⟩
  · rw [padTail_length, zeroCount_of_le h]
    omega
  · have h64 : tail.length < 64 := by omega
    rw [padTail_of_lt len h h64]
    refine ⟨List.take_left' (firstPaddedBlock_length h64), List.drop_left' (firstPaddedBlock_length h64), ?_⟩
    rw [List.length_append, firstPaddedBlock_length h64]
    simp

/-- The zero bytes depend on the length of the last, partial block alone. -/
theorem padSuffix_mod (n : Nat) (len : BitVec 64) : padSuffix (n % 64) len = padSuffix n len := by
  simp only [padSuffix, zeroCount_mod]

/-- The rest of a message after its full blocks is a partial block. -/
theorem length_drop_fullBlocks (m : List Byte) : (m.drop (64 * (m.length / 64))).length = m.length % 64 := by
  rw [List.length_drop]
  omega

/-- A padded message is its full blocks and the padded rest (R81). -/
theorem pad_eq_append_padTail (m : List Byte) :
    pad m = m.take (64 * (m.length / 64)) ++
      padTail (m.drop (64 * (m.length / 64))) (BitVec.ofNat 64 (8 * m.length)) := by
  rw [padTail, length_drop_fullBlocks, padSuffix_mod, ← List.append_assoc, List.take_append_drop, pad]

/-- Settles O43. -/
theorem tailPaddingAgreesWithWhole : Obligations.TailPaddingAgreesWithWhole := pad_eq_append_padTail

/-- SM3 of a message: its full blocks compressed, then the blocks of the padded rest (R81, R95). -/
theorem sm3_eq_compressBlocks_padTail (m : List Byte) :
    let p := padTail (m.drop (64 * (m.length / 64))) (BitVec.ofNat 64 (8 * m.length))
    sm3 m = compressBlocks (compressBlocks iv m (m.length / 64)) p (p.length / 64) := by
  intro p
  have htake : (m.take (64 * (m.length / 64))).length = 64 * (m.length / 64) := by
    rw [List.length_take]
    omega
  have hlen : (pad m).length = 64 * (m.length / 64) + p.length := by
    rw [pad_eq_append_padTail, List.length_append, htake]
  have hblocks : (pad m).length / 64 = m.length / 64 + p.length / 64 := by omega
  have hfull : compressBlocks iv (pad m) (m.length / 64) = compressBlocks iv m (m.length / 64) :=
    compressBlocks_append _ _ (by omega)
  have hrest : (pad m).drop (64 * (m.length / 64)) = p := by
    rw [pad_eq_append_padTail, List.drop_left' htake]
  rw [sm3, hblocks, compressBlocks_add, hfull, hrest]

/-! ### FINALIZE's padded tail -/

/-- With at most 55 bytes buffered FINALIZE compresses one block (R105). -/
theorem finalChain_of_le {s : State} (h : s.bufLen.toNat ≤ 55) :
    finalChain s = cf s.v (blockAt
      (bufTail s ++ [0x80] ++ List.replicate (55 - s.bufLen.toNat) 0 ++ be64bytes s.bitCnt) 0) := by
  rcases finalChain_cases s with ⟨_, hv⟩ | ⟨hlt, _⟩
  · rw [hv, padTail_of_le _ (by rwa [bufTail_length]), bufTail_length]
  · omega

/-- With more it compresses two: the length goes to a block of its own (R105). -/
theorem finalChain_of_lt {s : State} (h : 55 < s.bufLen.toNat) :
    finalChain s = cf (cf s.v (blockAt (bufTail s ++ [0x80] ++ List.replicate (63 - s.bufLen.toNat) 0) 0))
      (blockAt (List.replicate 56 0 ++ be64bytes s.bitCnt) 0) := by
  have hlt : (bufTail s).length < 64 := by
    rw [bufTail_length]
    exact s.bufLen.isLt
  have hlen := firstPaddedBlock_length hlt
  rcases finalChain_cases s with ⟨hle, _⟩ | ⟨_, hv⟩
  · omega
  · rw [hv, padTail_of_lt _ (by rwa [bufTail_length]) hlt, blockAt_append _ (by omega), ← blockAt_drop _ 1 0,
      List.drop_left' hlen, bufTail_length]

/-- FINALIZE folds CF over the blocks of the padded tail (R105, R95). -/
theorem finalChain_eq_compressBlocks (s : State) :
    finalChain s = compressBlocks s.v (padTail (bufTail s) s.bitCnt) ((padTail (bufTail s) s.bitCnt).length / 64) := by
  have hlen := padTail_length (bufTail s) s.bitCnt
  have hlt := s.bufLen.isLt
  rw [bufTail_length] at hlen
  rcases finalChain_cases s with ⟨hle, hv⟩ | ⟨hgt, hv⟩
  · rw [zeroCount_of_le hle] at hlen
    rw [hv, show (padTail (bufTail s) s.bitCnt).length / 64 = 1 by omega, compressBlocks_one]
  · rw [zeroCount_of_lt hgt hlt] at hlen
    rw [hv, show (padTail (bufTail s) s.bitCnt).length / 64 = 2 by omega, compressBlocks_succ, compressBlocks_one]

end Sys2Proof.Machine

/-! The message a state stands for (spec 44_digest_commands.md R96, R97, R107). -/

namespace Sys2Proof.Machine

/-- A state with the values of a new digest stands for the empty message. -/
theorem holds_nil {s : State} (hv : s.v = iv) (hl : s.bufLen = 0) (hb : s.bitCnt = 0) (hp : s.phase = .fresh) :
    Holds s [] where
  bitCnt_eq := hb
  fresh_empty _ := rfl
  chain _ := hv
  tail _ := bufTail_of_bufLen_zero hl
  digest hf := by simp [hp] at hf

theorem holds_startDigest (s : State) : Holds (startDigest s) [] := holds_nil rfl rfl rfl rfl

theorem holds_reset : Holds State.reset [] := holds_nil rfl rfl rfl rfl

/-- Settles O50. -/
theorem resetAndInitHoldEmptyMessage : Obligations.ResetAndInitHoldEmptyMessage := by
  refine ⟨holds_reset, fun s t h => ?_⟩
  obtain rfl := Host.Outcome.next.inj ((exec_init s).symm.trans h)
  exact holds_startDigest s

/-- An accepted UPDATE appends its bytes to the message (R97). -/
theorem Holds.updateEffect {s : State} {m : List Byte} (h : Holds s m) (hf : s.phase ≠ .final) (nb : BitVec 3) :
    Holds (updateEffect nb s) (m ++ messageBytes nb s.dataIn) := by
  obtain ⟨hchain, htail⟩ := (h.accumulates hf).updateEffect nb
  refine ⟨?_, fun hp => ?_, fun _ => hchain, fun _ => htail, fun hp => ?_⟩
  · rw [updateEffect_bitCnt, h.bitCnt_eq, List.length_append, messageBytes_length, Nat.mul_add, BitVec.ofNat_add]
  · rw [updateEffect_phase] at hp
    cases hp
  · rw [updateEffect_phase] at hp
    cases hp

/-- FINALIZE makes V the digest of the message (R105, R107). -/
theorem Holds.finalChain_eq_sm3 {s : State} {m : List Byte} (h : Holds s m) (hf : s.phase ≠ .final) :
    finalChain s = sm3 m := by
  rw [finalChain_eq_compressBlocks, h.chain hf, h.tail hf, h.bitCnt_eq, sm3_eq_compressBlocks_padTail]

/-- FINALIZE keeps the message (R97). -/
theorem Holds.publish {s : State} {m : List Byte} (h : Holds s m) (hf : s.phase ≠ .final) : Holds (publish s) m where
  bitCnt_eq := h.bitCnt_eq
  fresh_empty hp := by simp at hp
  chain hp := absurd (publish_phase s) hp
  tail hp := absurd (publish_phase s) hp
  digest _ := ⟨h.finalChain_eq_sm3 hf, rfl⟩

theorem Holds.raiseCmdError {s : State} {m : List Byte} (h : Holds s m) (c : ErrCode) : Holds (raiseCmdError c s) m :=
  h.congr rfl rfl rfl rfl rfl

/-- The queue and the responses play no part in what a state stands for. -/
theorem Holds.respond_withPending {s : State} {m : List Byte} (h : Holds s m) (r : Response) (es : List PortEvent) :
    Holds (respond r (withPending es s)) m :=
  h.congr rfl rfl rfl rfl rfl

/-- A command keeps the accumulator in step with the message. -/
theorem CommandEffect.holds_messageAfter {s u : State} {m : List Byte} {d : Except IllegalWord Instr}
    (hu : CommandEffect s d u) (h : Holds s m) (hr : resetsNext s = false) (hc : nextCommand s = d.toOption) :
    Holds u (messageAfter s m) := by
  cases hu with
  | illegal => simpa [messageAfter, hr, hc, Except.toOption] using h.raiseCmdError .illegalCmd
  | nop => simpa [messageAfter, hr, hc, Except.toOption] using h
  | init => simpa [messageAfter, hr, hc, Except.toOption] using holds_startDigest s
  | @update nb hf => simpa [messageAfter, hr, hc, Except.toOption, hf] using h.updateEffect hf nb
  | updateRejected hf => simpa [messageAfter, hr, hc, Except.toOption, hf] using h.raiseCmdError .invalidState
  | finalize hf => simpa [messageAfter, hr, hc, Except.toOption] using h.publish hf
  | finalizeRejected => simpa [messageAfter, hr, hc, Except.toOption] using h.raiseCmdError .invalidState

/-- A step keeps the accumulator in step with the message (R96). -/
theorem Holds.step {s t : State} {m : List Byte} (h : Holds s m) (hs : step s = .next t) :
    Holds t (messageAfter s m) := by
  rcases step_core_cases hs with ⟨hr, hv, hl, hb, hp, -⟩ | ⟨hr, -, hc, hv, hbuf, hl, hb, hp, -⟩ |
    ⟨hr, w, rest, u, -, -, hc, hx, rfl⟩
  · simpa [messageAfter, hr] using holds_nil hv hl hb hp
  · simpa [messageAfter, hr, hc] using h.congr hv hbuf hl hb hp
  · obtain ⟨u, hu, rfl⟩ := (commandEffect_of_execute hx).of_withPending
    exact (hu.holds_messageAfter h hr hc).respond_withPending .ok rest

/-- Settles O49: a reset starts the empty message, an event that is no CMD write keeps the five fields, and a command by
its effect. -/
theorem stepKeepsMessage : Obligations.StepKeepsMessage := fun _ _ _ => Holds.step

/-- A run keeps the accumulator in step with the message (R97). -/
theorem Holds.stepN {k : Nat} {s t : State} {m : List Byte} (h : Holds s m) (hs : stepN k s = .next t) :
    Holds t (messageAfterN k s m) := by
  induction k generalizing s m with
  | zero =>
    cases hs
    exact h
  | succ k ih =>
    obtain ⟨u, hu, ht⟩ := stepN_succ_inv hs
    rw [messageAfterN_succ k m hu]
    exact ih (h.step hu) ht

/-- Settles O51: both starts stand for the empty message, the run keeps the message, FINALIZE publishes its digest. -/
theorem digestIsSm3OfMessage : Obligations.DigestIsSm3OfMessage := by
  intro k s s₀ t u hstart hrun hf hu j
  have hempty : Holds s₀ [] := by
    rcases hstart with hinit | ⟨es, rfl⟩
    · exact resetAndInitHoldEmptyMessage.2 s s₀ hinit
    · exact holds_reset.congr rfl rfl rfl rfl rfl
  obtain rfl := Host.Outcome.next.inj ((exec_finalize_of_ne hf).symm.trans hu)
  rw [readReg_digest_of_final (publish_phase t), publish_v, (hempty.stepN hrun).finalChain_eq_sm3 hf]

end Sys2Proof.Machine

/-! The invariant of the reachable states, and the buffer's don't-care bytes (spec 10_state.md R17, R23). -/

namespace Sys2Proof.Machine

/-! ### The invariant -/

/-- With nothing buffered and nothing counted the invariant holds in every PHASE. -/
theorem inv_of_empty {s : State} (hl : s.bufLen = 0) (hb : s.bitCnt = 0) : Inv s where
  bufLen_eq _ := by simp [hl, hb]
  bitCnt_mod := by simp [hb]
  final_empty _ := hl
  fresh_empty _ := ⟨hl, hb⟩

/-- Settles O55. -/
theorem resetMeetsInvariant : Obligations.ResetMeetsInvariant := inv_of_empty rfl rfl

/-- The invariant looks at three fields only. -/
theorem Inv.congr {s t : State} (h : Inv s) (hl : t.bufLen = s.bufLen) (hb : t.bitCnt = s.bitCnt)
    (hp : t.phase = s.phase) : Inv t where
  bufLen_eq := by rw [hp, hl, hb]; exact h.bufLen_eq
  bitCnt_mod := by rw [hb]; exact h.bitCnt_mod
  final_empty := by rw [hp, hl]; exact h.final_empty
  fresh_empty := by rw [hp, hl, hb]; exact h.fresh_empty

/-- UPDATE moves BUFLEN and BITCNT by the same number of bytes (R104). -/
theorem Inv.updateEffect {s : State} (h : Inv s) (hf : s.phase ≠ .final) (nb : BitVec 3) : Inv (updateEffect nb s) := by
  have hlen := h.bufLen_eq hf
  have hmod := h.bitCnt_mod
  have hn := nb.isLt
  have hcnt : (Machine.updateEffect nb s).bitCnt.toNat = (s.bitCnt.toNat + 8 * nb.toNat) % 2 ^ 64 := by
    rw [updateEffect_bitCnt, BitVec.toNat_add, BitVec.toNat_ofNat, Nat.add_mod_mod]
  refine ⟨fun _ => ?_, ?_, fun hp => ?_, fun hp => ?_⟩
  · rw [updateEffect_bufLen, hcnt]
    omega
  · rw [hcnt]
    omega
  · rw [updateEffect_phase] at hp
    cases hp
  · rw [updateEffect_phase] at hp
    cases hp

theorem Inv.publish {s : State} (h : Inv s) : Inv (publish s) where
  bufLen_eq hp := absurd (publish_phase s) hp
  bitCnt_mod := h.bitCnt_mod
  final_empty _ := rfl
  fresh_empty hp := by simp at hp

/-- A command keeps the invariant. -/
theorem CommandEffect.inv {s u : State} {d : Except IllegalWord Instr} (hu : CommandEffect s d u) (h : Inv s) : Inv u := by
  cases hu with
  | illegal => exact h.congr rfl rfl rfl
  | nop => exact h
  | init => exact inv_of_empty rfl rfl
  | update hf => exact h.updateEffect hf _
  | updateRejected => exact h.congr rfl rfl rfl
  | finalize => exact h.publish
  | finalizeRejected => exact h.congr rfl rfl rfl

/-- Settles O54: by the effect of the step. -/
theorem stepKeepsInvariant : Obligations.StepKeepsInvariant := by
  intro s t h hs
  cases stepEffect_of_step hs with
  | reset _ _ hl hb => exact inv_of_empty hl hb
  | quiet _ _ _ _ hl hb hp => exact h.congr hl hb hp
  | command _ _ _ _ hu => exact (hu.inv h).congr rfl rfl rfl

/-- Refutes O56: from reset, UPDATE 1 and FINALIZE leave BITCNT at 8 and BUFLEN at 0. -/
theorem not_bufLenMatchesBitCntEverywhere : ¬ Obligations.BufLenMatchesBitCntEverywhere := by
  intro h
  obtain ⟨s, hs, hlen, hcnt⟩ : ∃ s, Reachable s ∧ s.bufLen = 0 ∧ s.bitCnt = 8 :=
    ⟨_, ⟨[.write 0x00 .word 0x12, .write 0x00 .word 0x03], 2, rfl⟩, rfl, rfl⟩
  have hbad := h s hs
  rw [BufLenMatchesBitCnt, hlen, hcnt] at hbad
  exact absurd hbad (by decide)

/-! ### The buffer at and above BUFLEN -/

theorem sameUpToDontCare_iff {s t : State} :
    SameUpToDontCare s t ↔ ∃ b, t = { s with buf := b } ∧ bufTail s = bufTail { s with buf := b } := by
  constructor
  · rintro ⟨hrest, htail⟩
    exact ⟨t.buf, hrest, by rwa [← hrest]⟩
  · rintro ⟨b, rfl, htail⟩
    exact ⟨rfl, htail⟩

/-- Storing a byte appends it to both tails, and a full block is made of the tail alone (R101). -/
theorem SameUpToDontCare.absorbByte {s t : State} (h : SameUpToDontCare s t) (b : Byte) :
    SameUpToDontCare (absorbByte s b) (absorbByte t b) := by
  obtain ⟨buf, rfl, htail⟩ := sameUpToDontCare_iff.1 h
  by_cases hfull : s.bufLen = 63
  · rw [absorbByte_of_eq b hfull, absorbByte_of_eq (s := { s with buf := buf }) b hfull]
    have hblock : s.buf.set 63 b = buf.set 63 b := by
      rw [fullBlock_eq b hfull, htail]
      exact (fullBlock_eq (s := { s with buf := buf }) b hfull).symm
    constructor
    · simp only [compressFull, hblock]
    · rw [bufTail_of_bufLen_zero (compressFull_bufLen _ _), bufTail_of_bufLen_zero (compressFull_bufLen _ _)]
  · rw [absorbByte_of_ne b hfull, absorbByte_of_ne (s := { s with buf := buf }) b hfull]
    refine ⟨rfl, ?_⟩
    rw [bufTail_storeByte b hfull, bufTail_storeByte (s := { s with buf := buf }) b hfull, htail]

theorem SameUpToDontCare.absorbBytes {s t : State} (h : SameUpToDontCare s t) (bs : List Byte) :
    SameUpToDontCare (absorbBytes bs s) (absorbBytes bs t) := by
  induction bs generalizing s t with
  | nil => exact h
  | cons b bs ih => exact ih (h.absorbByte b)

theorem SameUpToDontCare.updateEffect {s t : State} (h : SameUpToDontCare s t) (nb : BitVec 3) :
    SameUpToDontCare (updateEffect nb s) (updateEffect nb t) := by
  have hdata : t.dataIn = s.dataIn := by rw [h.rest]
  unfold Machine.updateEffect
  rw [hdata]
  obtain ⟨buf, hrest, htail⟩ := sameUpToDontCare_iff.1 (h.absorbBytes (messageBytes nb s.dataIn))
  rw [hrest]
  exact ⟨rfl, htail⟩

/-- FINALIZE pads the tail, which both states share (R105). -/
theorem SameUpToDontCare.publish {s t : State} (h : SameUpToDontCare s t) :
    SameUpToDontCare (publish s) (publish t) := by
  obtain ⟨buf, rfl, htail⟩ := sameUpToDontCare_iff.1 h
  have hchain : finalChain { s with buf := buf } = finalChain s := by
    simp only [finalChain, htail]
  constructor
  · simp only [Machine.publish, hchain]
  · rw [bufTail_of_bufLen_zero (publish_bufLen _), bufTail_of_bufLen_zero (publish_bufLen _)]

/-- An operation that keeps BUF and BUFLEN, and reads neither, keeps the two states alike. -/
theorem SameUpToDontCare.map {s t : State} (h : SameUpToDontCare s t) {f : State → State}
    (hf : ∀ b, f { s with buf := b } = { f s with buf := b }) (hlen : (f s).bufLen = s.bufLen) (hbuf : (f s).buf = s.buf) :
    SameUpToDontCare (f s) (f t) := by
  obtain ⟨buf, rfl, htail⟩ := sameUpToDontCare_iff.1 h
  rw [hf buf]
  refine ⟨rfl, ?_⟩
  simpa only [bufTail, hlen, hbuf] using htail

/-- No operation lets a byte of BUF at or above BUFLEN into another field. -/
theorem keptByOps_sameUpToDontCare : KeptByOps SameUpToDontCare where
  pending h := by rw [h.rest]
  phase h := by rw [h.rest]
  draws h := by rw [h.rest]
  withPending es h := h.map (f := Machine.withPending es) (fun _ => rfl) rfl rfl
  respond r h := h.map (f := Machine.respond r) (fun _ => rfl) rfl rfl
  raiseCmdError c h := h.map (f := Machine.raiseCmdError c) (fun _ => rfl) rfl rfl
  writeDataIn d h := h.map (f := Machine.writeDataIn d) (fun _ => rfl) rfl rfl
  startDigest h := by
    rw [h.rest]
    exact ⟨rfl, rfl⟩
  updateEffect nb h := h.updateEffect nb
  publish h := h.publish
  applyReset h := by
    rw [h.rest]
    exact ⟨rfl, rfl⟩
  drawFree h := h.map (f := Machine.drawFree) (fun _ => rfl) rfl rfl

/-- No register shows BUF (R26 to R30). -/
theorem SameUpToDontCare.readReg_eq {s t : State} (h : SameUpToDontCare s t) (r : PortReg) :
    readReg r s = readReg r t := by
  rw [h.rest]
  cases r <;> rfl

/-- A relation that every operation keeps and no register tells apart is kept by every run. -/
theorem KeptByOps.stepN {R : State → State → Prop} (hR : KeptByOps R)
    (hread : ∀ {s t : State}, R s t → ∀ r, readReg r s = readReg r t) {k : Nat} {s t s' t' : State} (h : R s t)
    (hs : stepN k s = .next s') (ht : stepN k t = .next t') : R s' t' := by
  induction k generalizing s t with
  | zero =>
    cases hs
    cases ht
    exact h
  | succ k ih =>
    obtain ⟨s₁, hs₁, hs⟩ := stepN_succ_inv hs
    obtain ⟨t₁, ht₁, ht⟩ := stepN_succ_inv ht
    have hstep := hR.step (hread h) h
    rw [hs₁, ht₁] at hstep
    exact ih hstep.related hs ht

/-- Settles O57: every operation keeps the two states alike, and no register shows BUF. -/
theorem bufferDontCaresAreUnobservable : Obligations.BufferDontCaresAreUnobservable :=
  fun _ _ _ _ _ => keptByOps_sameUpToDontCare.stepN SameUpToDontCare.readReg_eq

end Sys2Proof.Machine

/-! UPDATE's buffer, FINALIZE, the phases and an abandoned command (spec 44_digest_commands.md R101, R104 to R106;
70_reset_and_hazards.md R129, R130). -/

namespace Sys2Proof.Machine

/-! ### The bytes of BUF that absorbing leaves -/

theorem bufLen_eq_63_iff (s : State) : s.bufLen = 63 ↔ s.bufLen.toNat = 63 :=
  ⟨fun e => congrArg BitVec.toNat e, fun e => BitVec.eq_of_toNat_eq e⟩

/-- A byte stored makes the buffer one longer (R101). -/
theorem storeByte_bufLen_toNat {s : State} (b : Byte) (h : s.bufLen ≠ 63) :
    (storeByte b s).bufLen.toNat = s.bufLen.toNat + 1 := by
  rw [Ne, bufLen_eq_63_iff] at h
  have hlt := s.bufLen.isLt
  have hone : (1 : BitVec 6).toNat = 1 := rfl
  rw [storeByte_bufLen, BitVec.toNat_add, hone]
  omega

/-- Bytes that do not fill the buffer go to the positions from BUFLEN up (R101). -/
theorem absorbBytes_buf_of_lt {bs : List Byte} {s : State} {i : Fin 64} (hlt : s.bufLen.toNat + bs.length < 64)
    (hi : i.val < s.bufLen.toNat ∨ s.bufLen.toNat + bs.length ≤ i.val) : (absorbBytes bs s).buf[i] = s.buf[i] := by
  induction bs generalizing s with
  | nil => rfl
  | cons b bs ih =>
    rw [List.length_cons] at hlt hi
    have hne : s.bufLen ≠ 63 := by
      rw [Ne, bufLen_eq_63_iff]
      omega
    have hlen := storeByte_bufLen_toNat b hne
    rw [absorbBytes_cons, absorbByte_of_ne b hne, ih (by omega) (by omega), storeByte_buf]
    exact Vector.getElem_set_ne _ _ (by omega)

/-- Bytes that fill the buffer go up to position 62 and then from position 0 (R101). -/
theorem absorbBytes_buf_of_ge {bs : List Byte} {s : State} {i : Fin 64} (hge : 64 ≤ s.bufLen.toNat + bs.length)
    (h64 : bs.length ≤ 64)
    (hi : i.val = 63 ∨ (s.bufLen.toNat + bs.length - 64 ≤ i.val ∧ i.val < s.bufLen.toNat)) :
    (absorbBytes bs s).buf[i] = s.buf[i] := by
  induction bs generalizing s with
  | nil => rfl
  | cons b bs ih =>
    rw [List.length_cons] at hge h64 hi
    by_cases hfull : s.bufLen = 63
    · have h63 := (bufLen_eq_63_iff s).1 hfull
      have hzero : (compressFull b s).bufLen.toNat = 0 := rfl
      rw [absorbBytes_cons, absorbByte_of_eq b hfull, absorbBytes_buf_of_lt (by omega) (by omega), compressFull_buf]
    · have hne := mt (bufLen_eq_63_iff s).2 hfull
      have hlt := s.bufLen.isLt
      have hlen := storeByte_bufLen_toNat b hfull
      rw [absorbBytes_cons, absorbByte_of_ne b hfull, ih (by omega) (by omega) (by omega), storeByte_buf]
      exact Vector.getElem_set_ne _ _ (by omega)

/-- What UPDATE executes, for every byte count: a rejection, or its effect outside FINAL. -/
theorem exec_update_cases {nb : BitVec 3} {s t : State} (h : exec (.update nb) s = .next t) :
    (∃ c, t = raiseCmdError c s) ∨ (s.phase ≠ .final ∧ nb.toNat ≤ 4 ∧ t = updateEffect nb s) := by
  by_cases hn : nb.toNat ≤ 4
  · by_cases hf : s.phase = .final
    · exact .inl ⟨_, (Host.Outcome.next.inj ((exec_update_of_final hn hf).symm.trans h)).symm⟩
    · exact .inr ⟨hf, hn, (Host.Outcome.next.inj ((exec_update_of_ne hn hf).symm.trans h)).symm⟩
  · exact .inl ⟨_, (Host.Outcome.next.inj ((exec_update_of_lt hn s).symm.trans h)).symm⟩

/-- Settles O22: a rejection keeps BUF; an accepted UPDATE by whether the buffer fills. -/
theorem updateKeepsOtherBufferBytes : Obligations.UpdateKeepsOtherBufferBytes := by
  intro s t nb i h
  rcases exec_update_cases h with ⟨c, rfl⟩ | ⟨hf, hn, rfl⟩
  · exact ⟨fun _ => rfl, fun _ _ => rfl, fun _ _ => rfl⟩
  · have hlen := messageBytes_length nb s.dataIn
    refine ⟨fun hfin => absurd hfin hf, fun hlt hi => ?_, fun hge hi => ?_⟩
    · exact absorbBytes_buf_of_lt (by rwa [hlen]) (by rwa [hlen])
    · exact absorbBytes_buf_of_ge (by rwa [hlen]) (by omega) (by rwa [hlen])

/-! ### FINALIZE -/

/-- A word with FINALIZE's opcode and another bit set is no command (R59). -/
theorem decode_error_of_finalize_field {w : Word} (ho : fieldOp w = 3) (hw : w ≠ 0x00000003) :
    ∃ e, decode w = .error e := by
  cases hd : decode w with
  | error e => exact ⟨e, rfl⟩
  | ok i =>
    obtain ⟨-, rfl⟩ := wellFormed_and_encode_of_decode hd
    have hop : opcode i = 3 := by rw [← ho, encode, fieldOp_commandWord]
    cases i with
    | nop => cases hop
    | init => cases hop
    | update nb => cases hop
    | finalize => exact absurd rfl hw

theorem readReg_digest_congr {s t : State} (hv : t.v = s.v) (hp : t.phase = s.phase) (k : Fin 8) :
    readReg (.digest k) t = readReg (.digest k) s := by
  simp only [readReg, digestWord, hv, hp]

/-- In FINAL the digest stays readable through every step but INIT and reset (R29). -/
theorem readReg_digest_of_step {s t : State} (hf : s.phase = .final) (hs : step s = .next t)
    (hr : resetsNext s = false) (hc : nextCommand s ≠ some .init) (k : Fin 8) :
    readReg (.digest k) t = readReg (.digest k) s := by
  cases stepEffect_of_step hs with
  | reset hr' => simp [hr] at hr'
  | quiet _ _ _ hv _ _ hp => exact readReg_digest_congr hv hp k
  | command _ _ _ hc' hu =>
    cases hu with
    | illegal => rfl
    | nop => rfl
    | init => exact absurd hc' hc
    | update hne => exact absurd hf hne
    | updateRejected => rfl
    | finalize hne => exact absurd hf hne
    | finalizeRejected => rfl

/-- Outside FINAL FINALIZE publishes the final chaining state, which DIGESTk then reads (R105). -/
theorem exec_finalize_publishes {s : State} {v : ChainState} (hf : s.phase ≠ .final) (hv : finalChain s = v) :
    exec .finalize s = .next { s with v := v, bufLen := 0, phase := .final } ∧
      ∀ k : Fin 8, readReg (.digest k) { s with v := v, bufLen := 0, phase := .final } = v[k] := by
  subst hv
  exact ⟨exec_finalize_of_ne hf, readReg_digest_of_final (publish_phase s)⟩

/-- Settles O23: the compressions by how many bytes are buffered, the rejections, and the digest kept by every step. -/
theorem finalizePublishesDigest : Obligations.FinalizePublishesDigest := by
  refine ⟨rfl, fun s => ⟨fun hf hn => ?_, fun hf hn => ?_, fun hf => exec_finalize_of_final hf, fun w ho hw => ?_,
    fun t hf hs hr hc k => readReg_digest_of_step hf hs hr hc k⟩⟩
  · exact exec_finalize_publishes hf (finalChain_of_le hn)
  · exact exec_finalize_publishes hf (finalChain_of_lt hn)
  · obtain ⟨e, he⟩ := decode_error_of_finalize_field ho hw
    exact execute_error he s

/-! ### The phases -/

/-- A step that serves a reset leaves the core in FRESH (R128). -/
theorem step_phase_of_resetsNext {s t : State} (hr : resetsNext s = true) (hs : step s = .next t) :
    t.phase = .fresh := by
  cases stepEffect_of_step hs with
  | reset _ _ _ _ hp => exact hp
  | quiet hr' => simp [hr'] at hr
  | command hr' => simp [hr'] at hr

/-- Settles O25: by the effect of the command in each PHASE. -/
theorem phaseTransitionTable : Obligations.PhaseTransitionTable := by
  refine ⟨fun s t i hwf h => ?_, fun s w ⟨e, he⟩ => execute_error he s, fun _ _ => step_phase_of_resetsNext⟩
  cases commandEffect_of_exec hwf h with
  | nop => exact ⟨rfl, rfl⟩
  | init => rfl
  | update hf =>
    cases hp : s.phase with
    | fresh => rfl
    | accum => rfl
    | final => exact absurd hp hf
  | updateRejected hf =>
    rw [hf]
    exact ⟨hf, by rw [← hf]; rfl⟩
  | finalize hf =>
    cases hp : s.phase with
    | fresh => rfl
    | accum => rfl
    | final => exact absurd hp hf
  | finalizeRejected hf =>
    rw [hf]
    exact ⟨hf, by rw [← hf]; rfl⟩

/-! ### Reset -/

/-- Settles O34: the abandoned command leaves what a plain reset does, but for one draw and perhaps a response. -/
theorem resetAbandonsCommand : Obligations.ResetAbandonsCommand := by
  intro s w rest h
  obtain ⟨rs, hrs, heq⟩ := abandonCommand_eq (withPending rest s)
  refine ⟨_, applyReset (withPending rest s), serve_resetDuringCommand h, serve_reset rfl, ?_⟩
  rw [heq]
  exact ⟨rfl, rfl, rfl, rfl, rfl, rfl, rfl, hrs⟩

/-- Settles O35: INIT and reset both start a new digest. -/
theorem resetIsInitPlusDataIn : Obligations.ResetIsInitPlusDataIn := by
  refine ⟨by decide, rfl, fun s t h => ?_⟩
  obtain rfl := Host.Outcome.next.inj ((exec_init s).symm.trans h)
  exact ⟨rfl, rfl, rfl, rfl, rfl, rfl⟩

end Sys2Proof.Machine

/-! Host programs: any split of a message, and HASH (spec 30_encoding.md R61, R62; 44_digest_commands.md R107, R109). -/

namespace Sys2Proof.Machine

/-! ### Runs of given events -/

/-- From every state that meets `P` and has the events `es` at the head of its queue, serving exactly these leads to a
state that meets `Q`. -/
def Runs (P : State → Prop) (es : List PortEvent) (Q : State → Prop) : Prop :=
  ∀ (s : State) (rest : List PortEvent), P s → s.pending = es ++ rest →
    ∃ t, stepN es.length s = .next t ∧ t.pending = rest ∧ Q t

theorem Runs.nil (P : State → Prop) : Runs P [] P :=
  fun s _ hP hp => ⟨s, stepN_zero s, hp, hP⟩

theorem Runs.append {P Q R : State → Prop} {es es' : List PortEvent} (h : Runs P es Q) (h' : Runs Q es' R) :
    Runs P (es ++ es') R := by
  intro s rest hP hp
  rw [List.append_assoc] at hp
  obtain ⟨t, hs, hpt, hQ⟩ := h s _ hP hp
  obtain ⟨u, ht, hpu, hR⟩ := h' t rest hQ hpt
  refine ⟨u, ?_, hpu, hR⟩
  rw [List.length_append, stepN_add _ hs, ht]

/-- One event is one step. -/
theorem Runs.of_step {P Q : State → Prop} {e : PortEvent}
    (h : ∀ (s : State) (rest : List PortEvent), P s → s.pending = e :: rest →
      ∃ t, step s = .next t ∧ t.pending = rest ∧ Q t) : Runs P [e] Q := by
  intro s rest hP hp
  obtain ⟨t, hs, hpt, hQ⟩ := h s rest hP hp
  exact ⟨t, stepN_succ 0 hs, hpt, hQ⟩

theorem asmEvents_append (p q : List AsmLine) : asmEvents (p ++ q) = asmEvents p ++ asmEvents q :=
  List.filterMap_append

/-! ### The commands of a digest -/

/-- The state has absorbed the message `m` and takes more. -/
def Absorbing (m : List Byte) (s : State) : Prop := Holds s m ∧ s.phase ≠ .final

/-- The digest `v` can be read. -/
def Published (v : ChainState) (s : State) : Prop := s.phase = .final ∧ s.v = v

theorem runs_init : Runs (fun _ => True) (asmEvents [.command .init]) (Absorbing []) := by
  refine Runs.of_step fun s rest _ hp => ⟨_, step_of_decode_ok hp (decode_encode rfl) (exec_init _), rfl, ?_, nofun⟩
  exact (holds_startDigest s).congr rfl rfl rfl rfl rfl

theorem runs_writeDataIn (m : List Byte) (d : Word) :
    Runs (Absorbing m) [.write 0x08 .word d] (fun t => Absorbing m t ∧ t.dataIn = d) :=
  Runs.of_step fun _ _ ⟨h, hf⟩ hp =>
    ⟨_, step_write_aligned hp (by decide) (by decide), rfl, ⟨h.congr rfl rfl rfl rfl rfl, hf⟩, rfl⟩

theorem runs_update (m : List Byte) (d : Word) {nb : BitVec 3} (hn : nb.toNat ≤ 4) :
    Runs (fun s => Absorbing m s ∧ s.dataIn = d) [.write 0x00 .word (encode (.update nb))]
      (Absorbing (m ++ messageBytes nb d)) := by
  refine Runs.of_step fun s rest ⟨⟨h, hf⟩, hd⟩ hp => ?_
  have hstep := step_of_decode_ok hp (decode_encode (decide_eq_true hn))
    (exec_update_of_ne (s := withPending rest s) hn hf)
  rw [updateEffect_withPending] at hstep
  refine ⟨_, hstep, rfl, ?_, nofun⟩
  rw [← hd]
  exact (h.updateEffect hf nb).respond_withPending .ok rest

/-- PUSH absorbs its bytes (R62). -/
theorem runs_push (m : List Byte) (d : Word) {nb : BitVec 3} (hn : nb.toNat ≤ 4) :
    Runs (Absorbing m) (asmEvents (push nb d)) (Absorbing (m ++ messageBytes nb d)) :=
  (runs_writeDataIn m d).append (runs_update m d hn)

theorem runs_pushes (m : List Byte) {ps : List (BitVec 3 × Word)} (hps : ∀ p ∈ ps, p.1.toNat ≤ 4) :
    Runs (Absorbing m) (asmEvents (ps.flatMap fun p => push p.1 p.2))
      (Absorbing (m ++ ps.flatMap fun p => messageBytes p.1 p.2)) := by
  induction ps generalizing m with
  | nil =>
    rw [List.flatMap_nil, List.flatMap_nil, List.append_nil]
    exact Runs.nil _
  | cons p ps ih =>
    rw [List.forall_mem_cons] at hps
    rw [List.flatMap_cons, asmEvents_append, List.flatMap_cons, ← List.append_assoc]
    exact (runs_push m p.2 hps.1).append (ih _ hps.2)

/-- FINALIZE publishes the digest of what was absorbed (R107). -/
theorem runs_finalize (m : List Byte) :
    Runs (Absorbing m) (asmEvents [.command .finalize]) (Published (sm3 m)) := by
  refine Runs.of_step fun s rest ⟨h, hf⟩ hp => ?_
  exact ⟨_, step_of_decode_ok hp (decode_encode rfl) (exec_finalize_of_ne (s := withPending rest s) hf), rfl, rfl,
    h.finalChain_eq_sm3 hf⟩

/-! ### Reading the digest -/

/-- The events of READDIGEST are reads of the digest registers in order (R62). -/
theorem asmEvents_readDigest :
    asmEvents readDigest = (List.finRange 8).map fun k => .read (BitVec.ofNat 6 (0x20 + 4 * k.val)) .word := rfl

/-- Reads of digest registers are answered with the digest's words, the latest first. -/
theorem runs_readDigestWords (v : ChainState) (rs : List Response) (ks : List (Fin 8)) :
    Runs (fun s => Published v s ∧ s.responses = rs)
      (ks.map fun k => .read (BitVec.ofNat 6 (0x20 + 4 * k.val)) .word)
      (fun t => Published v t ∧ t.responses = (ks.map fun k => Response.data v[k]).reverse ++ rs) := by
  induction ks generalizing rs with
  | nil => exact Runs.nil _
  | cons k ks ih =>
    have hread : Runs (fun s => Published v s ∧ s.responses = rs) [.read (BitVec.ofNat 6 (0x20 + 4 * k.val)) .word]
        (fun t => Published v t ∧ t.responses = .data v[k] :: rs) := by
      refine Runs.of_step fun s rest ⟨⟨hf, hv⟩, hrs⟩ hp => ?_
      have hstep := step_read_aligned hp (digestOffset_aligned k)
      rw [regAt_digestOffset, readReg_digest_of_final hf, hv] at hstep
      exact ⟨_, hstep, rfl, ⟨hf, hv⟩, congrArg (_ :: ·) hrs⟩
    rw [List.map_cons, List.map_cons, List.reverse_cons, List.append_assoc]
    exact hread.append (ih _)

/-- READDIGEST answers the digest's eight words (R62). -/
theorem runs_readDigest (v : ChainState) :
    Runs (Published v) (asmEvents readDigest)
      (fun t => Published v t ∧ t.responses.take 8 = (v.toList.map Response.data).reverse) := by
  intro s rest hv hp
  rw [asmEvents_readDigest] at hp ⊢
  obtain ⟨t, hs, hpt, htv, hresp⟩ := runs_readDigestWords v s.responses (List.finRange 8) s rest ⟨hv, rfl⟩ hp
  refine ⟨t, hs, hpt, htv, ?_⟩
  rw [hresp, chainState_toList, List.map_map]
  exact List.take_left' (by simp)

/-! ### A whole digest -/

/-- INIT, PUSHes, FINALIZE and READDIGEST answer the digest of the bytes pushed. -/
theorem runs_hashPushes {ps : List (BitVec 3 × Word)} (hps : ∀ p ∈ ps, p.1.toNat ≤ 4) :
    let v := sm3 (ps.flatMap fun p => messageBytes p.1 p.2)
    Runs (fun _ => True) (asmEvents (hashPushes ps))
      (fun t => Published v t ∧ t.responses.take 8 = (v.toList.map Response.data).reverse) := by
  intro v
  rw [hashPushes, asmEvents_append, asmEvents_append, asmEvents_append]
  exact ((runs_init.append (runs_pushes [] hps)).append (runs_finalize _)).append (runs_readDigest v)

/-- Settles O52. -/
theorem anySplitGivesSm3 : Obligations.AnySplitGivesSm3 := by
  intro s ps rest hps hp
  obtain ⟨t, hs, hpt, ⟨hf, hv⟩, hresp⟩ := runs_hashPushes hps s rest trivial hp
  exact ⟨t, hs, hpt, hf, hv, by rw [hv, hresp]⟩

/-! ### HASH -/

/-- The PUSHes of `ABSORB`: four bytes each, and the rest in one more. -/
def messagePushes : List Byte → List (BitVec 3 × Word)
  | b0 :: b1 :: b2 :: b3 :: rest => (4, be32 b0 b1 b2 b3) :: messagePushes rest
  | [b0, b1, b2] => [(3, be32 b0 b1 b2 0)]
  | [b0, b1] => [(2, be32 b0 b1 0 0)]
  | [b0] => [(1, be32 b0 0 0 0)]
  | [] => []

/-- ABSORB is these PUSHes (R62). -/
theorem absorb_eq_flatMap_push (m : List Byte) : absorb m = (messagePushes m).flatMap fun p => push p.1 p.2 := by
  fun_induction messagePushes m with
  | case1 b0 b1 b2 b3 rest ih => rw [absorb, ih, List.flatMap_cons]
  | case2 => rfl
  | case3 => rfl
  | case4 => rfl
  | case5 => rfl

/-- HASH is a split of the message (R109). -/
theorem hashLines_eq_hashPushes (m : List Byte) : hashLines m = hashPushes (messagePushes m) := by
  rw [hashLines, absorb_eq_flatMap_push, hashPushes]

theorem messagePushes_toNat_le (m : List Byte) : ∀ p ∈ messagePushes m, p.1.toNat ≤ 4 := by
  fun_induction messagePushes m with
  | case1 b0 b1 b2 b3 rest ih => exact List.forall_mem_cons.2 ⟨Nat.le_refl 4, ih⟩
  | case2 => simp
  | case3 => simp
  | case4 => simp
  | case5 => simp

/-- It takes one PUSH for every four bytes begun (R109). -/
theorem messagePushes_length (m : List Byte) : (messagePushes m).length = (m.length + 3) / 4 := by
  fun_induction messagePushes m with
  | case1 b0 b1 b2 b3 rest ih =>
    simp only [List.length_cons, ih]
    omega
  | case2 => simp
  | case3 => simp
  | case4 => simp
  | case5 => rfl

/-- The PUSHes deliver the message's bytes in order (R42). -/
theorem messagePushes_flatMap_messageBytes (m : List Byte) :
    ((messagePushes m).flatMap fun p => messageBytes p.1 p.2) = m := by
  fun_induction messagePushes m with
  | case1 b0 b1 b2 b3 rest ih =>
    obtain ⟨h0, h1, h2, h3⟩ := byteOfWord_be32 b0 b1 b2 b3
    rw [List.flatMap_cons, ih, messageBytes_four, h0, h1, h2, h3]
    rfl
  | case2 b0 b1 b2 =>
    obtain ⟨h0, h1, h2, -⟩ := byteOfWord_be32 b0 b1 b2 0
    exact congrArg₂ List.cons h0 (congrArg₂ List.cons h1 (congrArg₂ List.cons h2 rfl))
  | case3 b0 b1 =>
    obtain ⟨h0, h1, -⟩ := byteOfWord_be32 b0 b1 0 0
    exact congrArg₂ List.cons h0 (congrArg₂ List.cons h1 rfl)
  | case4 b0 =>
    obtain ⟨h0, -⟩ := byteOfWord_be32 b0 0 0 0
    exact congrArg₂ List.cons h0 rfl
  | case5 => rfl

/-- Every PUSH has one UPDATE and one line that is none. -/
theorem countP_flatMap_push {isUpdate : AsmLine → Bool} (hwr : ∀ off v, isUpdate (.wr off v) = false)
    (hup : ∀ nb, isUpdate (.command (.update nb)) = true) (ps : List (BitVec 3 × Word)) :
    (ps.flatMap fun p => push p.1 p.2).countP isUpdate = ps.length := by
  induction ps with
  | nil => rfl
  | cons p ps ih =>
    rw [List.flatMap_cons, List.countP_append, ih, List.length_cons, Nat.add_comm]
    simp [push, hwr, hup]

/-- Settles O53: HASH is a split of its message. -/
theorem hashProgramAnswersSm3 : Obligations.HashProgramAnswersSm3 := by
  intro s m rest hp
  refine ⟨?_, ?_⟩
  · have hrun := runs_hashPushes (messagePushes_toNat_le m) s rest trivial (by rwa [← hashLines_eq_hashPushes])
    rw [messagePushes_flatMap_messageBytes, ← hashLines_eq_hashPushes] at hrun
    obtain ⟨t, hs, hpt, ⟨hf, hv⟩, hresp⟩ := hrun
    exact ⟨t, hs, hpt, hf, hv, hresp⟩
  · rw [absorb_eq_flatMap_push, countP_flatMap_push (fun _ _ => rfl) (fun _ => rfl), messagePushes_length]

end Sys2Proof.Machine

/-! Constants and fixed blocks, the window and the times (spec 40_wordops.md R71 to R75; 42_message_schedule.md R86;
20_memory.md R35, R38; 70_reset_and_hazards.md R138). -/

namespace Sys2Proof.Machine

/-! ### Constants and fixed blocks -/

/-- Settles O40: the constants are the model's, and the rotated ones are computed. -/
theorem suppliedConstants : Obligations.SuppliedConstants :=
  ⟨rfl, fun _ _ => rfl, by decide, by decide, by decide, by decide, by decide, by decide⟩

/-- Of equal words the next word is a function of that word alone (R84). -/
theorem nextWord_replicate {n : Nat} (h : 16 ≤ n) (c : Word) :
    nextWord (List.replicate n c) = p1 (rotl c 15) ^^^ rotl c 7 ^^^ c := by
  have hget (k : Nat) (hk : 0 < k) : (List.replicate n c).getD (n - k) 0 = c := by
    rw [List.getD_replicate _ (by omega)]
  simp only [nextWord, List.length_replicate, hget, Nat.zero_lt_succ, BitVec.xor_self, BitVec.zero_xor]

/-- A word that the recurrence repeats fills W. -/
theorem extendWords_replicate {c : Word} (hc : p1 (rotl c 15) ^^^ rotl c 7 ^^^ c = c) {n : Nat} (h : 16 ≤ n) (k : Nat) :
    extendWords k (List.replicate n c) = List.replicate (n + k) c := by
  induction k generalizing n with
  | zero => rfl
  | succ k ih =>
    rw [extendWords, nextWord_replicate h, hc, ← List.replicate_succ', ih (by omega)]
    congr 1
    omega

theorem expandW_replicate {b : Byte} {c : Word} (hb : be32 b b b b = c)
    (hc : p1 (rotl c 15) ^^^ rotl c 7 ^^^ c = c) : expandW (Vector.replicate 64 b) = List.replicate 68 c := by
  have hload : loadWords (Vector.replicate 64 b) = List.replicate 16 c := by
    rw [← hb]
    rfl
  rw [expandW, hload, extendWords_replicate hc le_rfl]

/-- Equal words W make every W′ zero (R85). -/
theorem expandW'_replicate (c : Word) : expandW' (List.replicate 68 c) = List.replicate 64 0 := by
  refine List.eq_replicate_iff.2 ⟨expandW'_length _, fun w hw => ?_⟩
  obtain ⟨j, hj, rfl⟩ := List.mem_map.1 hw
  have hj : j < 64 := List.mem_range.1 hj
  rw [List.getD_replicate _ (by omega), List.getD_replicate _ (by omega)]
  exact BitVec.xor_self

/-- Settles O45: the recurrence repeats the word 0 and the word of all ones. -/
theorem expansionCornerBlocks : Obligations.ExpansionCornerBlocks := by
  have hzero : expandW (Vector.replicate 64 0) = List.replicate 68 0 := expandW_replicate (by decide) (by decide)
  have hones : expandW (Vector.replicate 64 0xFF) = List.replicate 68 0xFFFFFFFF :=
    expandW_replicate (by decide) (by decide)
  refine ⟨hzero, ?_, hones, ?_⟩
  · rw [hzero, expandW'_replicate]
  · rw [hones, expandW'_replicate]

/-- Settles O47: one block, compressed from the IV. -/
theorem abcDigest : Obligations.AbcDigest := by
  have hsm3 : sm3 [0x61, 0x62, 0x63] = cf iv (blockAt (pad [0x61, 0x62, 0x63]) 0) := rfl
  rw [Obligations.AbcDigest, hsm3]
  decide +kernel

/-! ### The window -/

/-- An address in the window selects its distance from BASE (R35). -/
theorem windowOffset_base_add (off : Offset) : windowOffset (Config.base + off.toNat) = some off := by
  have hlt := off.isLt
  rw [windowOffset, if_pos (by omega), Nat.add_sub_cancel_left, BitVec.ofNat_toNat, BitVec.setWidth_eq]

/-- An address outside the window selects nothing (R38). -/
theorem windowOffset_outside {addr : Nat} (h : addr < Config.base ∨ Config.base + 64 ≤ addr) :
    windowOffset addr = none := if_neg (by omega)

/-- Settles O17: by what the window selects. -/
theorem windowStandsAtBase : Obligations.WindowStandsAtBase := by
  refine ⟨Nat.mul_mod_right 64 _, fun off => ⟨?_, fun v => ?_⟩, fun addr n v h => ⟨?_, ?_⟩⟩
  · rw [memRead, windowOffset_base_add]
    rfl
  · rw [memWrite, windowOffset_base_add]
    rfl
  · simp only [memRead, windowOffset_outside h]
  · simp only [memWrite, windowOffset_outside h]

/-! ### Times -/

theorem latRead_pos : 0 < Config.latRead := Nat.succ_pos _
theorem latInit_pos : 0 < Config.latInit := Nat.succ_pos _
theorem latUnnamed_pos (e : PortEvent) : 0 < Config.latUnnamed e := Nat.succ_pos _

/-- Either of the two times that R138 allows is positive. -/
theorem ite_latInit_latRead_pos (b : Bool) : 0 < if b then Config.latInit else Config.latRead := by
  cases b with
  | false => exact latRead_pos
  | true => exact latInit_pos

theorem commandTime_pos (i : Instr) (s : State) : 0 < commandTime i s := by
  cases i with
  | nop => exact ite_latInit_latRead_pos _
  | init => exact latInit_pos
  | update nb => exact Nat.succ_pos _
  | finalize => exact Nat.succ_pos _

theorem cmdWriteTime_pos (w : Word) (s : State) : 0 < cmdWriteTime w s := by
  unfold cmdWriteTime
  cases decode w with
  | error e => exact latUnnamed_pos _
  | ok i =>
    simp only
    split
    · exact latUnnamed_pos _
    · exact commandTime_pos i s

theorem portTime_read_aligned {off : Offset} (ho : off.toNat % 4 = 0) (s : State) :
    portTime (.read off .word) s = some Config.latRead := by
  rw [portTime, accessCheck_ok rfl ho]

/-- A DATA_IN write takes one of the two times that R138 allows. -/
theorem portTime_writeDataIn (d : Word) (s : State) :
    portTime (.write 0x08 .word d) s = some (if Config.dataInWriteUsesInit then Config.latInit else Config.latRead) := rfl

theorem portTime_writeCmd (w : Word) (s : State) : portTime (.write 0x00 .word w) s = some (cmdWriteTime w s) := rfl

/-- An accepted command takes its own time (R138). -/
theorem portTime_command {i : Instr} {s : State} (hwf : i.wellFormed = true)
    (hacc : rejectedInPhase i s.phase = false) :
    portTime (.write 0x00 .word (encode i)) s = some (commandTime i s) := by
  rw [portTime_writeCmd, cmdWriteTime, decode_encode hwf]
  simp [hacc]

/-- A write to any other register is one that R138 does not name (log entry 8). -/
theorem portTime_write_ignored {off : Offset} (ho : off.toNat % 4 = 0) (hcmd : regAt off ≠ .cmd)
    (hdata : regAt off ≠ .dataIn) (d : Word) (s : State) :
    portTime (.write off .word d) s = some (Config.latUnnamed (.write off .word d)) := by
  rw [portTime, accessCheck_ok rfl ho]
  cases hr : regAt off with
  | cmd => exact absurd hr hcmd
  | dataIn => exact absurd hr hdata
  | status => rfl
  | bitCntLo => rfl
  | bitCntHi => rfl
  | digest k => rfl
  | reserved => rfl

theorem portTime_read_pos (off : Offset) (size : AccessSize) (s : State) :
    ∃ n, portTime (.read off size) s = some n ∧ 0 < n := by
  rcases accessCheck_cases off size with ⟨rfl, ho, -⟩ | ⟨-, hc⟩
  · exact ⟨_, portTime_read_aligned ho s, latRead_pos⟩
  · refine ⟨Config.latUnnamed (.read off size), ?_, latUnnamed_pos _⟩
    rw [portTime, hc]

theorem portTime_write_pos (off : Offset) (size : AccessSize) (d : Word) (s : State) :
    ∃ n, portTime (.write off size d) s = some n ∧ 0 < n := by
  rcases accessCheck_cases off size with ⟨rfl, ho, -⟩ | ⟨-, hc⟩
  · by_cases hcmd : regAt off = .cmd
    · obtain rfl := regAt_cmd ho hcmd
      exact ⟨_, portTime_writeCmd d s, cmdWriteTime_pos d s⟩
    · by_cases hdata : regAt off = .dataIn
      · obtain rfl := regAt_dataIn ho hdata
        exact ⟨_, portTime_writeDataIn d s, ite_latInit_latRead_pos _⟩
      · exact ⟨_, portTime_write_ignored ho hcmd hdata d s, latUnnamed_pos _⟩
  · refine ⟨Config.latUnnamed (.write off size d), ?_, latUnnamed_pos _⟩
    rw [portTime, hc]

theorem updateBlocks_mem (nb : BitVec 3) (s : State) : updateBlocks nb s ∈ [0, 1] := by
  unfold updateBlocks
  split <;> simp

theorem finalizeBlocks_mem (s : State) : finalizeBlocks s ∈ [1, 2] := by
  unfold finalizeBlocks
  split <;> simp

/-- Either of the two times is one that R138 allows. -/
theorem ite_latInit_latRead_mem (b : Bool) :
    some (if b then Config.latInit else Config.latRead) ∈ [some Config.latRead, some Config.latInit] := by
  cases b <;> simp

/-- Settles O59: event by event, and the accepted commands by `portTime_command`. -/
theorem transactionsTakeFiniteTime : Obligations.TransactionsTakeFiniteTime := by
  refine ⟨fun s e hreset hduring => ?_, fun s off ho => portTime_read_aligned ho s, fun s d => ?_, fun s => ⟨?_, ?_⟩,
    fun s hf => ⟨fun nb hn => ?_, ?_⟩⟩
  · cases e with
    | read off size => exact portTime_read_pos off size s
    | write off size d => exact portTime_write_pos off size d s
    | reset => exact absurd rfl hreset
    | resetDuringCommand w => exact absurd rfl (hduring w)
  · rw [portTime_writeDataIn]
    exact ite_latInit_latRead_mem _
  · rw [portTime_command rfl rfl]
    exact ite_latInit_latRead_mem _
  · rw [portTime_command rfl rfl]
    exact ite_latInit_latRead_mem true
  · exact ⟨_, updateBlocks_mem nb s, portTime_command (decide_eq_true hn) (decide_eq_false hf)⟩
  · exact ⟨_, finalizeBlocks_mem s, portTime_command rfl (decide_eq_false hf)⟩

end Sys2Proof.Machine
